-- ==== Sys2Proof/Word.lean ====
section
/-! DEFINITION. The word types of the RECE-232 encoder core (spec/00_scope.md R6). -/

namespace Sys2Proof

/-- A 32-bit data word or command operand (R6 `WORD_WIDTH`, R45). -/
abbrev Word := BitVec 32

/-- A 35-bit command word (R6 `CMD_WIDTH`, R41). -/
abbrev CmdWord := BitVec 35

/-- One 8-bit output character (R6 `CHAR_WIDTH`, R33). -/
abbrev Chr := BitVec 8

/-- The 6-bit chaining value (R6 `SPACER_WIDTH`, R11). -/
abbrev Spacer := BitVec 6

/-- The contents of a CRC-8 code table: 256 entries of 8 bits (R18). -/
abbrev CodeTable := BitVec 8 → BitVec 8

end Sys2Proof
end

