-- ==== Sys2Proof/Syntax.lean ====
section
/-! DEFINITION. The commands of the core (spec/30_encoding.md R43, spec/opcode_table.json) and the lines of its assembly
language (R48, R49). -/

namespace Sys2Proof

/-- One constructor per row of spec/opcode_table.json. An INIT carries the whole 32-bit OPERAND, as the command word
does: its masking to 6 bits is the command's own effect (R44). The bits WORD and FINISH ignore (R46) are dropped here. -/
inductive Instr where
  /-- `INIT.A <header>` (R90) -/
  | initA (operand : Word)
  /-- `INIT.B <header>` (R91) -/
  | initB (operand : Word)
  /-- `WORD <word>` (R92) -/
  | word (w : Word)
  /-- `FINISH` (R93) -/
  | finish
deriving DecidableEq, Repr

/-- One line of assembly: a command, or a pseudo-instruction of R49. Operands are the numbers written on the line; the
check that each is a 32-bit value (R48) is `SourceLine.wellFormed`. -/
inductive SourceLine where
  | initA (header : Nat)
  | initB (header : Nat)
  | word (w : Nat)
  | finish
  | streamA (header : Nat) (ws : List Nat)
  | streamB (header : Nat) (ws : List Nat)
deriving DecidableEq, Repr

end Sys2Proof
end

