-- ==== Sys2Proof/WellFormed.lean ====
section
/-! DEFINITION. Which terms of the syntax the spec admits. -/

namespace Sys2Proof

/-- Every command is well formed: every 32-bit OPERAND is a legal INIT operand (R44: excess bits are discarded, never
rejected) and every 32-bit value is a legal word (R45). There is nothing to refuse here; the widths are in the types. -/
def Instr.wellFormed : Instr → Bool
  | .initA _ => true
  | .initB _ => true
  | .word _ => true
  | .finish => true

/-- The number written on an assembly line is a 32-bit value (R48). -/
def isWordValue (n : Nat) : Bool := n < 2 ^ 32

/-- Every numeric operand of the line is a 32-bit value (R48, R49). -/
def SourceLine.wellFormed : SourceLine → Bool
  | .initA h => isWordValue h
  | .initB h => isWordValue h
  | .word w => isWordValue w
  | .finish => true
  | .streamA h ws => isWordValue h && ws.all isWordValue
  | .streamB h ws => isWordValue h && ws.all isWordValue

end Sys2Proof
end

