-- ==== Sys2Proof/Decode.lean ====
section
/-! DEFINITION. The command word format: decoder, encoder and the expansion of assembly lines
(spec/30_encoding.md R41 to R49, spec/opcode_table.json). -/

namespace Sys2Proof

/-! ## Fields of a command word (R41) -/

/-- `OP`, bits 34:33. -/
def opField (c : CmdWord) : BitVec 2 := c.extractLsb' 33 2

/-- `VAR`, bit 32. -/
def varField (c : CmdWord) : BitVec 1 := c.extractLsb' 32 1

/-- `OPERAND`, bits 31:0. -/
def operandField (c : CmdWord) : Word := c.extractLsb' 0 32

/-! ## The opcode map (R43) -/

/-- One row of the opcode map. -/
structure OpcodeRow where
  mnemonic : String
  pattern  : CmdWord
  mask     : CmdWord
deriving DecidableEq, Repr

/-- R43, row INIT.A. -/
def rowInitA : OpcodeRow := ⟨"INIT.A", 0x000000000#35, 0x700000000#35⟩
/-- R43, row INIT.B. -/
def rowInitB : OpcodeRow := ⟨"INIT.B", 0x100000000#35, 0x700000000#35⟩
/-- R43, row WORD: bit 32 is not in the mask (R46). -/
def rowWord : OpcodeRow := ⟨"WORD", 0x200000000#35, 0x600000000#35⟩
/-- R43, row FINISH: bits 32:0 are not in the mask (R46). -/
def rowFinish : OpcodeRow := ⟨"FINISH", 0x400000000#35, 0x600000000#35⟩
/-- R43, the reserved row OP = 11, which selects no command (R47). -/
def rowReserved : OpcodeRow := ⟨"(reserved)", 0x600000000#35, 0x600000000#35⟩

/-- The rows of spec/opcode_table.json, in its order. -/
def opcodeRows : List OpcodeRow := [rowInitA, rowInitB, rowWord, rowFinish]

/-- The word matches the row's pattern under its mask. -/
def rowSelects (r : OpcodeRow) (c : CmdWord) : Bool := (c &&& r.mask) == r.pattern

/-! ## Decoding -/

/-- Why a number is no command. -/
inductive Reject where
  /-- `OP = 11` (R47): the machine then raises `IllegalCommand` (R104). -/
  | reservedOp
  /-- The number has a bit above bit 34: it is no command word (R41: "exactly 35 bits"). -/
  | notCommandWord
deriving DecidableEq, Repr

/-- What a word decodes to. -/
inductive Decoded where
  | command (i : Instr)
  | rejected (r : Reject)
deriving DecidableEq, Repr

/-- The command a 35-bit command word selects (R43), with the operand of R44 or R45. -/
def decode (c : CmdWord) : Decoded :=
  if rowSelects rowInitA c then .command (.initA (operandField c))
  else if rowSelects rowInitB c then .command (.initB (operandField c))
  else if rowSelects rowWord c then .command (.word (operandField c))
  else if rowSelects rowFinish c then .command .finish
  else .rejected .reservedOp

/-- Decoding of any number. -/
def decodeNat (w : Nat) : Decoded :=
  if w < 2 ^ 35 then decode (BitVec.ofNat 35 w) else .rejected .notCommandWord

/-- The host's fixed name: bit k of `w` is bit k of the command word. A command word is one 35-bit value on a 35-bit
path and has no byte order (R34, R36), so there are no bytes to lay out: DEDUCED, safe, log entry 16. -/
def decodeTableWord (nbits w : Nat) : Option Instr :=
  match decodeNat (w % 2 ^ nbits) with
  | .command i => some i
  | .rejected _ => none

/-! ## Encoding (R43, R48) -/

/-- The command word an assembler writes: the row's pattern with the operand, 0 in every ignored bit (R48). -/
def encode : Instr → CmdWord
  | .initA h => rowInitA.pattern ||| h.setWidth 35
  | .initB h => rowInitB.pattern ||| h.setWidth 35
  | .word w => rowWord.pattern ||| w.setWidth 35
  | .finish => rowFinish.pattern

/-- The instruction's row of the opcode map. -/
def rowOf : Instr → OpcodeRow
  | .initA _ => rowInitA
  | .initB _ => rowInitB
  | .word _ => rowWord
  | .finish => rowFinish

/-- The word is one an assembler writes (R48): it selects a command and every bit WORD and FINISH ignore is 0.
INIT's `OPERAND[31:6]` is part of the written operand and may hold anything. -/
def isCanonical (c : CmdWord) : Bool :=
  if rowSelects rowWord c then varField c == 0#1
  else if rowSelects rowFinish c then varField c == 0#1 && operandField c == 0#32
  else !rowSelects rowReserved c

/-! ## Assembly lines (R48, R49) -/

/-- A stream's commands (R49): INIT, one WORD per word, FINISH. -/
def streamCommands (init : Instr) (ws : List Word) : List Instr :=
  init :: (ws.map Instr.word ++ [.finish])

/-- The commands a line stands for (R48; the pseudo-instructions by R49). -/
def expandLine : SourceLine → List Instr
  | .initA h => [.initA (BitVec.ofNat 32 h)]
  | .initB h => [.initB (BitVec.ofNat 32 h)]
  | .word w => [.word (BitVec.ofNat 32 w)]
  | .finish => [.finish]
  | .streamA h ws => streamCommands (.initA (BitVec.ofNat 32 h)) (ws.map (BitVec.ofNat 32))
  | .streamB h ws => streamCommands (.initB (BitVec.ofNat 32 h)) (ws.map (BitVec.ofNat 32))

/-- The command words of a line, or none where an operand is no 32-bit value (R48). -/
def assembleLine (l : SourceLine) : Option (List CmdWord) :=
  if l.wellFormed then some ((expandLine l).map encode) else none

end Sys2Proof
end

