-- ==== Sys2Proof/Config.lean ====
section
/-! DEFINITION. What the spec leaves to the implementation. The fixed literals of spec/00_scope.md R6 stand in
Sys2Proof/Machine/Params.lean, where a repair can mend them. -/

namespace Sys2Proof

/-- `CRC8_TABLE`, the OPEN parameter of R6, R18 and R60 (92_eei_decisions.md D13). It has no body: no value of it can be
computed or proved, so a statement that holds of it holds of every table. DESIGN CHOICE of form, safe: log entry 5. -/
opaque Config.crc8Table : CodeTable

end Sys2Proof
end

