-- ==== Sys2Proof/Machine/Params.lean ====
section
/-! DEFINITION. The fixed literals of spec/00_scope.md R6, each as the source states it (92_eei_decisions.md D25):
UNVERIFIED, unsafe, log entry 14. -/

namespace Sys2Proof.Machine

/-- `QUINTET_TAG` -/
def quintetTag : BitVec 8 := 0x20#8
/-- `SEXTET_TAG` -/
def sextetTag : BitVec 8 := 0x40#8
/-- `PARITY_COMPLEMENT` -/
def parityComplement : BitVec 6 := 0x3F#6
/-- `FLETCHER_MODULUS` -/
def fletcherModulus : Nat := 255
/-- `CRC16_POLY_REFLECTED` -/
def crc16Poly : BitVec 16 := 0xA6BC#16
/-- `CRC16_SEED_CONST` -/
def crc16Seed : BitVec 16 := 0x1AF7#16
/-- `GROUP_LENGTH` -/
def groupLength : Nat := 8
/-- `TRAILER_LENGTH` -/
def trailerLength : Nat := 3

end Sys2Proof.Machine
end

