-- ==== Sys2Proof/Machine/Operands.lean ====
section
/-! DEFINITION. The operand forms of the commands (spec/30_encoding.md R44 to R46) and the field split of a word
(spec/42_word_codec.md R80). -/

namespace Sys2Proof.Machine

/-- INIT's header, `OPERAND[5:0]`; `OPERAND[31:6]` is discarded without effect (R44). -/
def headerOf (operand : Word) : Spacer := operand.extractLsb' 0 6

/-- WORD's data word, all of `OPERAND` (R45). -/
def dataWordOf (operand : Word) : Word := operand

/-- The six fields of a word (R51). -/
structure WordFields where
  b0 : BitVec 5
  b1 : BitVec 6
  b2 : BitVec 5
  b3 : BitVec 5
  b4 : BitVec 6
  b5 : BitVec 5
deriving DecidableEq, Repr

/-- `split(w)` (R80). -/
def split (w : Word) : WordFields where
  b0 := w.extractLsb' 0 5
  b1 := w.extractLsb' 5 6
  b2 := w.extractLsb' 11 5
  b3 := w.extractLsb' 16 5
  b4 := w.extractLsb' 21 6
  b5 := w.extractLsb' 27 5

end Sys2Proof.Machine
end

