-- ==== Sys2Proof/Machine/Codec.lean ====
section
/-! DEFINITION. The line-code encoder and self-framing field tagger (spec/42_word_codec.md R80 to R85) and the trailer
packing (spec/41_checksum_engine.md R71). -/

namespace Sys2Proof.Machine

/-- `parity(b0, b1, b2, bS, b3, b4, b5)`: the exclusive OR of the seven payload fields, complemented over 6 bits (R82). -/
def parity (f : WordFields) (bS : Spacer) : BitVec 6 :=
  (f.b0.setWidth 6 ^^^ f.b1 ^^^ f.b2.setWidth 6 ^^^ bS ^^^ f.b3.setWidth 6 ^^^ f.b4 ^^^ f.b5.setWidth 6)
    ^^^ parityComplement

/-- `tag(position, field)`: even positions carry quintets, odd ones sextets (R83). The field comes zero-extended. -/
def tag (position : Nat) (field : BitVec 8) : Chr :=
  if position % 2 = 0 then field ||| quintetTag else field ||| sextetTag

/-- The eight fields of a word group, zero-extended, in the order of R52. -/
def payload (w : Word) (s : Spacer) : List (BitVec 8) :=
  let f := split w
  [f.b0.setWidth 8, f.b1.setWidth 8, f.b2.setWidth 8, s.setWidth 8,
   f.b3.setWidth 8, f.b4.setWidth 8, f.b5.setWidth 8, (parity f s).setWidth 8]

/-- `tag` at each position of a list of fields, the first at position `p`. -/
def tagFrom (p : Nat) : List (BitVec 8) → List Chr
  | [] => []
  | f :: fs => tag p f :: tagFrom (p + 1) fs

/-- `group(w, s)`: the 8 characters of a word, in emission order (R84, R85). -/
def group (w : Word) (s : Spacer) : List Chr := tagFrom 0 (payload w s)

/-- `pack565(v)`: the 3 characters of the trailer, low bits first, with the tags of R53 (R71). -/
def pack565 (v : BitVec 16) : List Chr :=
  tagFrom 0 [(v.extractLsb' 0 5).setWidth 8, (v.extractLsb' 5 6).setWidth 8, (v.extractLsb' 11 5).setWidth 8]

end Sys2Proof.Machine
end

