-- ==== Sys2Proof/Machine/State.lean ====
section
/-! DEFINITION. The state of the core (spec/10_state.md R10 to R22), the host's side of its interfaces as plain data
(spec/30_encoding.md R40), and the reasons a step of the model can stop. -/

namespace Sys2Proof.Machine

/-- The checksum algorithm of a session (R15). -/
inductive Variant where
  /-- Fletcher-16 over CRC-8 residues. -/
  | A
  /-- CRC-16/DNP-style. -/
  | B
deriving DecidableEq, Repr

/-- The sequencer phase (R14). -/
inductive Phase where
  | idle | fresh | streaming | finished
deriving DecidableEq, Repr

/-- The cause held by the `fault` field (R16, 60_exceptions.md R101). Codes 5 to 7 are never written, so no
constructor stands for them (DEDUCED, safe, log entry 18); the 3-bit codes are `Cause.code`. -/
inductive Cause where
  | none | noSession | afterFinish | illegalCommand | sinkAbort
deriving DecidableEq, Repr

/-- The state record `st` of R10. `Option.none` is the spec's own *no value* ("A model represents such a field as an
option type"), which is what reset leaves (R21): log entry 1. -/
structure Record where
  spacer  : Option Spacer
  sum1    : Option (BitVec 8)
  sum2    : Option (BitVec 8)
  chk     : Option (BitVec 16)
  variant : Option Variant
  phase   : Phase
  fault   : Cause
deriving DecidableEq, Repr

/-- A command in progress (R19, R37): the characters the output channel has not accepted yet and the record the command
writes after the last of them. -/
structure InFlight where
  pending : List Chr
  target  : Record
deriving DecidableEq, Repr

/-- What the output channel will accept: every character, or only the next `n` (70_reset_and_hazards.md R125). -/
inductive Sink where
  | ready
  | room (n : Nat)
deriving DecidableEq, Repr

/-- One action of the host on the interfaces of R40. -/
inductive HostEvent where
  /-- It presents a command word on the command channel. -/
  | command (c : CmdWord)
  /-- It changes what the output channel accepts. -/
  | sink (k : Sink)
  /-- It aborts the output channel (60_exceptions.md R105). -/
  | abort
  /-- It asserts reset (70_reset_and_hazards.md R120). -/
  | reset
deriving DecidableEq, Repr

/-- The machine: the spec's record and command in progress, then the model's own picture of the outside world
(log entries 2, 3 and 4): the host events to come, the output channel's readiness, and the characters delivered so
far, first emitted first (R32). -/
structure State where
  st       : Record
  inFlight : Option InFlight
  input    : List HostEvent
  sink     : Sink
  out      : List Chr
deriving DecidableEq, Repr

/-- The fields of the record that can hold no value. -/
inductive Field where
  | spacer | sum1 | sum2 | chk | variant
deriving DecidableEq, Repr

/-- Why the model stops. -/
inductive Fault where
  /-- Raised by WORD and FINISH where they read a field that holds no value (R10: "a model faults if it is"). Safe: R22
  says that the rules never reach it, and no state that meets the invariant of R22 does. -/
  | noValue (f : Field)
deriving DecidableEq, Repr

/-- Why the model gives an instruction no meaning. -/
inductive Refusal where
  /-- Raised by an arm of exec that has no meaning yet: no arm is one. Safe. -/
  | notModelled (mnemonic : String)
deriving DecidableEq, Repr

/-- The record after reset (R21). -/
def Record.reset : Record where
  spacer  := none
  sum1    := none
  sum2    := none
  chk     := none
  variant := none
  phase   := .idle
  fault   := .none

/-- The machine right after reset (R21, R120): the record's reset values and no command in progress. The host has
presented nothing, its output channel accepts every character and nothing has been delivered: DESIGN CHOICES, unsafe for
a claim about a run from reset alone, log entries 2, 3 and 4. -/
def State.reset : State where
  st       := Record.reset
  inFlight := none
  input    := []
  sink     := .ready
  out      := []

end Sys2Proof.Machine
end

