-- ==== Sys2Proof/Machine/Checksum.lean ====
section
/-! DEFINITION. The checksum engine of both variants, the CRC-8 table read and the spacer derivation
(spec/41_checksum_engine.md R60 to R74). Every function is total and raises nothing (R73). The code table is an argument
(R60: "A model takes the table as an argument and assumes no law of it"); the commands pass `Config.crc8Table`. -/

namespace Sys2Proof.Machine

/-! ## Variant A: Fletcher-16 over CRC-8 residues -/

/-- `residue(c)` = `RomRead(c)` (R60, 20_memory.md R31). -/
def residue (T : CodeTable) (c : Chr) : BitVec 8 := T c

/-- `initA()` (R61). -/
def initA : BitVec 8 × BitVec 8 := (0#8, 0#8)

/-- `fletcherStep(s1, s2, c)`: exact additions, the second of the sum just made (R62, 92_eei_decisions.md D12). -/
def fletcherStep (T : CodeTable) (s : Nat × Nat) (c : Chr) : Nat × Nat :=
  let a := s.1 + (residue T c).toNat
  (a, s.2 + a)

/-- The running sums over a list of characters, not yet reduced (R63). -/
def fletcherSums (T : CodeTable) (s : Nat × Nat) (g : List Chr) : Nat × Nat := g.foldl (fletcherStep T) s

/-- `fletcherWord(s1, s2, g)`: one reduction modulo 255, after the word (R63, 90_conflicts.md C4). -/
def fletcherWord (T : CodeTable) (s1 s2 : BitVec 8) (g : List Chr) : BitVec 8 × BitVec 8 :=
  let s := fletcherSums T (s1.toNat, s2.toNat) g
  (BitVec.ofNat 8 (s.1 % fletcherModulus), BitVec.ofNat 8 (s.2 % fletcherModulus))

/-- `spacerA(s2)` (R64). -/
def spacerA (s2 : BitVec 8) : Spacer := s2.extractLsb' 0 6

/-! ## Variant B: CRC-16/DNP-style -/

/-- `crcBit(acc)` at either width (R65). -/
def crcBit {n : Nat} (acc : BitVec n) : BitVec n :=
  if acc.getLsbD 0 then (acc >>> 1) ^^^ crc16Poly.setWidth n else acc >>> 1

/-- `k` rounds of `crcBit`. -/
def crcRounds {n : Nat} : Nat → BitVec n → BitVec n
  | 0, acc => acc
  | k + 1, acc => crcRounds k (crcBit acc)

/-- `crcByte(crc, x)` (R66). -/
def crcByte (crc : BitVec 16) (x : BitVec 8) : BitVec 16 := crcRounds 8 (crc ^^^ x.setWidth 16)

/-- `initB(spacer)` (R67). -/
def initB (s : Spacer) : BitVec 16 := crcByte crc16Seed (s.setWidth 8)

/-- The 32-bit accumulator of `crcWord` after its 32 rounds (R68). -/
def crcWordAcc (chk : BitVec 16) (w : Word) : BitVec 32 := crcRounds 32 (w ^^^ chk.setWidth 32)

/-- `crcWord(chk, w)` (R68, 90_conflicts.md C2). -/
def crcWord (chk : BitVec 16) (w : Word) : BitVec 16 := (crcWordAcc chk w).extractLsb' 0 16

/-- `spacerB(chk)` = `{chk[11:10], chk[6:5], chk[1:0]}` (R70). -/
def spacerB (chk : BitVec 16) : Spacer :=
  chk.extractLsb' 10 2 ++ chk.extractLsb' 5 2 ++ chk.extractLsb' 0 2

/-! ## The engine (R72, R74) -/

/-- The running accumulator of a session: variant A's two sums or variant B's `chk`. -/
inductive Accumulator where
  | fletcher (s1 s2 : BitVec 8)
  | crc (chk : BitVec 16)
deriving DecidableEq, Repr

/-- `engineWord(st, w, g)`: the new accumulator and the next spacer. Variant A consumes the characters, variant B the
raw word (R74). -/
def engineWord (T : CodeTable) (acc : Accumulator) (w : Word) (g : List Chr) : Accumulator × Spacer :=
  match acc with
  | .fletcher s1 s2 =>
    let s := fletcherWord T s1 s2 g
    (.fletcher s.1 s.2, spacerA s.2)
  | .crc chk =>
    let c := crcWord chk w
    (.crc c, spacerB c)

/-- `checkValue(st)`: `{sum2, sum1}` or `chk` as it stands (R72). -/
def checkValue : Accumulator → BitVec 16
  | .fletcher s1 s2 => s2 ++ s1
  | .crc chk => chk

/-- The record with the accumulator's own fields rewritten and no other (10_state.md R20). -/
def storeAccumulator (acc : Accumulator) (r : Record) : Record :=
  match acc with
  | .fletcher s1 s2 => { r with sum1 := some s1, sum2 := some s2 }
  | .crc chk => { r with chk := some chk }

end Sys2Proof.Machine
end

