-- ==== Sys2Proof/Machine/Flags.lean ====
section
/-! DEFINITION. The core has no condition flags; its only flag is `fault` (spec/10_state.md R17). Here: the codes of
the control fields (R14 to R16) and the status output (spec/30_encoding.md R55). -/

namespace Sys2Proof.Machine

/-- The 2-bit encoding of `phase` (R14). -/
def Phase.code : Phase → BitVec 2
  | .idle => 0#2
  | .fresh => 1#2
  | .streaming => 2#2
  | .finished => 3#2

/-- The encoding of `variant` on the status output; 0 while it has no value (R15, R55). That last case is the spec's
own choice on which no claim may rest (93_implementation_defined.md I12): unsafe, log entry 12. -/
def variantBit : Option Variant → BitVec 1
  | some .A => 0#1
  | some .B => 1#1
  | none => 0#1

/-- The 3-bit cause codes (R16, 60_exceptions.md R101). -/
def Cause.code : Cause → BitVec 3
  | .none => 0#3
  | .noSession => 1#3
  | .afterFinish => 2#3
  | .illegalCommand => 3#3
  | .sinkAbort => 4#3

/-- A command is in progress: accepted, and its last character not yet accepted (R55, R125). -/
def State.busy (s : State) : Bool := s.inFlight.isSome

/-- The status output: bits 1:0 phase, 2 variant, 5:3 fault, 6 busy (R55). Reading it has no side effect. -/
def State.status (s : State) : BitVec 7 :=
  BitVec.ofBool s.busy ++ s.st.fault.code ++ variantBit s.st.variant ++ s.st.phase.code

end Sys2Proof.Machine
end

