-- ==== Sys2Proof/Machine/Ops.lean ====
section
/-! DEFINITION. The operations the commands share: the prologue, taking a fault, reading a field, delivering characters
and writing the next record, and the host's other actions on the interfaces. -/

namespace Sys2Proof.Machine

/-! ## The output byte channel (spec/20_memory.md R32) -/

/-- The channel accepts a character now. -/
def Sink.accepts : Sink → Bool
  | .ready => true
  | .room n => n != 0

/-- The channel after `k` accepted characters. -/
def Sink.after (k : Nat) : Sink → Sink
  | .ready => .ready
  | .room n => .room (n - k)

/-- The channel accepts `k` more characters. -/
def Sink.hasRoom (k : Nat) : Sink → Bool
  | .ready => true
  | .room n => k ≤ n

/-- `Emit(c)`: one accepted character (R32). -/
def emit (c : Chr) (s : State) : State := { s with out := s.out ++ [c], sink := s.sink.after 1 }

/-- Deliver a command's output list in order and write its next record once, after the last character is accepted
(43_encoder_commands.md R94, 20_memory.md R37); with an empty list, at acceptance. Where the channel stops accepting,
the command stays in progress with the record unwritten (70_reset_and_hazards.md R125): DEDUCED, safe, log entry
11. -/
def deliver (target : Record) : List Chr → State → State
  | [], s => { s with st := target, inFlight := none }
  | c :: cs, s =>
    if s.sink.accepts then deliver target cs (emit c s) else { s with inFlight := some ⟨c :: cs, target⟩ }

/-! ## Fault entry (spec/60_exceptions.md R106) and exit (R108: reset only) -/

/-- The record with the cause recorded, which is done only while it is 0 (R16, R106). -/
def recordCause (c : Cause) (r : Record) : Record := if r.fault = .none then { r with fault := c } else r

/-- `raise <Fault>()`: the cause is recorded, no other field changes, no character is emitted, `busy` drops (R106). -/
def raiseFault (c : Cause) (s : State) : State := { s with st := recordCause c s.st, inFlight := none }

/-! ## The prologue (spec/43_encoder_commands.md R98) -/

/-- What the prologue distinguishes: the three kinds of command, and a word with OP = 11. -/
inductive CommandKind where
  | init | word | finish | reserved
deriving DecidableEq, Repr

/-- WORD and FINISH need a session in Fresh or Streaming (R94). -/
def CommandKind.needsSession : CommandKind → Bool
  | .init => false
  | .word => true
  | .finish => true
  | .reserved => false

/-- What the prologue decides. -/
inductive Gate where
  | ignore
  | raise (c : Cause)
  | proceed
deriving DecidableEq, Repr

/-- The checks of R98 in its order (60_exceptions.md R107, R104, R102, R103, priority R109). -/
def prologue (k : CommandKind) (r : Record) : Gate :=
  if r.fault ≠ .none then .ignore
  else if k = .reserved then .raise .illegalCommand
  else if k.needsSession = true ∧ r.phase = .idle then .raise .noSession
  else if k.needsSession = true ∧ r.phase = .finished then .raise .afterFinish
  else .proceed

/-- Run a command whose effect past the prologue is `body`. A busy core accepts no command (70_reset_and_hazards.md
R125), so one put to it changes nothing; `step` never does that: DEDUCED, safe, log entry 9. -/
def runCommand (k : CommandKind) (s : State) (body : Host.Outcome State Fault Refusal) :
    Host.Outcome State Fault Refusal :=
  if s.busy then .next s
  else
    match prologue k s.st with
    | .ignore => .next s
    | .raise c => .next (raiseFault c s)
    | .proceed => body

/-- A command word with OP = 11: the prologue ignores it or raises `IllegalCommand` (R104). -/
def takeIllegalCommand (s : State) : Host.Outcome State Fault Refusal := runCommand .reserved s (.next s)

/-! ## Reading the record (spec/10_state.md R10) -/

/-- Read a field; one that holds no value stops the model (R10: "a model faults if it is"). -/
def readField {α : Type} (f : Field) (v : Option α) (k : α → Host.Outcome State Fault Refusal) :
    Host.Outcome State Fault Refusal :=
  match v with
  | some a => k a
  | none => .fault (.noValue f)

/-- Read the session's accumulator: `variant`, then that variant's own fields (R20). -/
def readAccumulator (r : Record) (k : Accumulator → Host.Outcome State Fault Refusal) :
    Host.Outcome State Fault Refusal :=
  readField .variant r.variant fun v =>
    match v with
    | .A => readField .sum1 r.sum1 fun s1 => readField .sum2 r.sum2 fun s2 => k (.fletcher s1 s2)
    | .B => readField .chk r.chk fun c => k (.crc c)

/-! ## The host's other actions -/

/-- The output channel's readiness changes; a command in progress goes on delivering (R125). -/
def changeSink (k : Sink) (s : State) : State :=
  match s.inFlight with
  | none => { s with sink := k }
  | some f => deliver f.target f.pending { s with sink := k }

/-- The host aborts the output channel: a command in progress ends, the characters accepted stay delivered, the rest are
discarded, its record is not written and `SinkAbort` is raised (60_exceptions.md R105). With none in progress there is
nothing to abort and nothing changes: DESIGN CHOICE, unsafe, log entry 6. -/
def abortSink (s : State) : State :=
  match s.inFlight with
  | none => s
  | some _ => raiseFault .sinkAbort s

/-- Reset: the record takes its reset values and a command in progress is abandoned; what was delivered stays delivered
(70_reset_and_hazards.md R120). One assertion is one action: DESIGN CHOICE, unsafe, log entry 17. -/
def applyReset (s : State) : State := { s with st := Record.reset, inFlight := none }

/-! ## Which host action comes next -/

/-- The first action that is no command, and the list without it. -/
def firstControl : List HostEvent → Option (HostEvent × List HostEvent)
  | [] => none
  | .command c :: es =>
    match firstControl es with
    | none => none
    | some (e, rest) => some (e, .command c :: rest)
  | .sink k :: es => some (.sink k, es)
  | .abort :: es => some (.abort, es)
  | .reset :: es => some (.reset, es)

/-- The first action, and the list without it. -/
def firstEvent : List HostEvent → Option (HostEvent × List HostEvent)
  | [] => none
  | e :: es => some (e, es)

/-- The next action that takes place, and the state with it taken off the input. While a command is in progress the
command channel accepts nothing, so presented commands wait, in order (R125): DEDUCED, safe, log entry 10. -/
def nextEvent (s : State) : Option (HostEvent × State) :=
  match (if s.busy then firstControl s.input else firstEvent s.input) with
  | none => none
  | some (e, rest) => some (e, { s with input := rest })

end Sys2Proof.Machine
end

