-- ==== Sys2Proof/Machine/Encode.lean ====
section
/-! DEFINITION. WORD and FINISH (spec/43_encoder_commands.md R92, R93). Each is written once for any code table; the
command itself runs it with the core's own, `Config.crc8Table`. -/

namespace Sys2Proof.Machine

/-- The record WORD writes: the new accumulator and spacer, phase Streaming (R92). -/
def wordRecord (acc : Accumulator) (s : Spacer) (r : Record) : Record :=
  { storeAccumulator acc r with spacer := some s, phase := .streaming }

/-- WORD past its prologue, with the code table `T` (R92). -/
def encodeWordWith (T : CodeTable) (w : Word) (s : State) : Host.Outcome State Fault Refusal :=
  readField .spacer s.st.spacer fun sp =>
    readAccumulator s.st fun acc =>
      let g := group w sp
      let e := engineWord T acc w g
      .next (deliver (wordRecord e.1 e.2 s.st) g s)

/-- WORD with the code table `T`. -/
def execWordWith (T : CodeTable) (operand : Word) (s : State) : Host.Outcome State Fault Refusal :=
  runCommand .word s (encodeWordWith T (dataWordOf operand) s)

/-- WORD: encodes one 32-bit word into 8 characters (R92). -/
def execWord (operand : Word) (s : State) : Host.Outcome State Fault Refusal :=
  execWordWith Config.crc8Table operand s

/-- FINISH: emits the checksum trailer and ends the session (R93). -/
def execFinish (s : State) : Host.Outcome State Fault Refusal :=
  runCommand .finish s
    (readAccumulator s.st fun acc =>
      .next (deliver { s.st with phase := .finished } (pack565 (checkValue acc)) s))

end Sys2Proof.Machine
end

