-- ==== Sys2Proof/Machine/Init.lean ====
section
/-! DEFINITION. INIT.A and INIT.B (spec/43_encoder_commands.md R90, R91). -/

namespace Sys2Proof.Machine

/-- The record INIT.A writes. -/
def startA (h : Spacer) (r : Record) : Record :=
  { r with
    variant := some .A, spacer := some h, sum1 := some initA.1, sum2 := some initA.2, chk := none, phase := .fresh }

/-- The record INIT.B writes. -/
def startB (h : Spacer) (r : Record) : Record :=
  { r with
    variant := some .B, spacer := some h, chk := some (initB h), sum1 := none, sum2 := none, phase := .fresh }

/-- INIT.A: starts a variant A session; no output (R90). -/
def execInitA (operand : Word) (s : State) : Host.Outcome State Fault Refusal :=
  runCommand .init s (.next (deliver (startA (headerOf operand) s.st) [] s))

/-- INIT.B: starts a variant B session; no output (R91). -/
def execInitB (operand : Word) (s : State) : Host.Outcome State Fault Refusal :=
  runCommand .init s (.next (deliver (startB (headerOf operand) s.st) [] s))

end Sys2Proof.Machine
end

