-- ==== Sys2Proof/Machine/Dispatch.lean ====
section
/-! DEFINITION. One arm per command: the dispatch to its meaning. -/

namespace Sys2Proof.Machine

def exec (i : Instr) (s : State) : Host.Outcome State Fault Refusal :=
  match i with
  | .initA operand => Sys2Proof.Machine.execInitA operand s
  | .initB operand => Sys2Proof.Machine.execInitB operand s
  | .word w => Sys2Proof.Machine.execWord w s
  | .finish => Sys2Proof.Machine.execFinish s

end Sys2Proof.Machine
end

