-- ==== Sys2Proof/Machine/Step.lean ====
section
/-! DEFINITION. One step of the machine: one action of the host (spec/10_state.md R17: "each step is one command
presented on the command channel by the host"; spec/43_encoder_commands.md R94). -/

namespace Sys2Proof.Machine

/-- Take the next host action. A command word is decoded and run; a word with OP = 11 takes `IllegalCommand`. Where there
is none the core waits, holding its state (60_exceptions.md R114), busy for as long as its output is not accepted
(70_reset_and_hazards.md R125): DEDUCED, safe, log entry 7. -/
def step (s : State) : Host.Outcome State Fault Refusal :=
  match nextEvent s with
  | none => .next s
  | some (.command c, t) =>
    match decode c with
    | .command i => exec i t
    | .rejected _ => takeIllegalCommand t
  | some (.sink k, t) => .next (changeSink k t)
  | some (.abort, t) => .next (abortSink t)
  | some (.reset, t) => .next (applyReset t)

/-- The host's fixed name: the state with this command word presented next, on a command channel that is free to accept
it (no command in progress). The core runs no stored program; a program is the sequence of words the host presents
(10_state.md R17): DEDUCED, safe, log entry 8. -/
def State.withFetchWord (s : State) (nbits w : Nat) : State :=
  { s with input := .command (BitVec.ofNat 35 (w % 2 ^ nbits)) :: s.input, inFlight := none }

end Sys2Proof.Machine
end

