-- ==== Sys2Proof/Machine/Assembler.lean ====
section
/-! DEFINITION. The text of the assembly language (spec/30_encoding.md R48, R49): one command a line, numeric operands in
hexadecimal or decimal, a comment after a semicolon. The step function does not use it: the core sees command words. Blanks, and what
is no line: DESIGN CHOICE, safe, log entry 15. -/

namespace Sys2Proof.Machine

/-- A blank between the parts of a line. -/
def isBlank (c : Char) : Bool := c == ' ' || c == '\t'

/-- The list without blanks at its ends. -/
def trimBlanks (l : List Char) : List Char := ((l.dropWhile isBlank).reverse.dropWhile isBlank).reverse

/-- The value of a digit of the base, or none. -/
def digitValue (base : Nat) (c : Char) : Option Nat :=
  let n := c.toNat
  let v :=
    if 48 ≤ n ∧ n ≤ 57 then n - 48
    else if 65 ≤ n ∧ n ≤ 70 then n - 55
    else if 97 ≤ n ∧ n ≤ 102 then n - 87
    else base
  if v < base then some v else none

/-- Read digits after the value `acc` of those before them. -/
def readDigits (base acc : Nat) : List Char → Option Nat
  | [] => some acc
  | c :: cs =>
    match digitValue base c with
    | none => none
    | some d => readDigits base (acc * base + d) cs

/-- A numeric operand: `0x` and hexadecimal digits, or decimal digits (R48). -/
def readNumber : List Char → Option Nat
  | [] => none
  | '0' :: 'x' :: d :: ds => readDigits 16 0 (d :: ds)
  | d :: ds => readDigits 10 0 (d :: ds)

/-- The parts of a list between commas. -/
def splitCommas : List Char → List (List Char)
  | [] => [[]]
  | c :: cs =>
    match splitCommas cs with
    | [] => [[c]]
    | p :: ps => if c == ',' then [] :: p :: ps else (c :: p) :: ps

/-- Every element of the list read as a number, or none. -/
def readNumbers : List (List Char) → Option (List Nat)
  | [] => some []
  | p :: ps =>
    match readNumber (trimBlanks p), readNumbers ps with
    | some n, some ns => some (n :: ns)
    | _, _ => none

/-- A line without its comment and the blanks around it (R48). -/
def lineText (l : List Char) : List Char := trimBlanks (l.takeWhile (· != ';'))

/-- One assembly line (R48, R49), or none where it is no line of the language. -/
def parseLine (l : List Char) : Option SourceLine :=
  let t := lineText l
  let name := t.takeWhile (!isBlank ·)
  let rest := trimBlanks (t.dropWhile (!isBlank ·))
  let operands := if rest.isEmpty then some [] else readNumbers (splitCommas rest)
  match operands with
  | none => none
  | some ns =>
    if name = ['I', 'N', 'I', 'T', '.', 'A'] then
      match ns with
      | [h] => some (.initA h)
      | _ => none
    else if name = ['I', 'N', 'I', 'T', '.', 'B'] then
      match ns with
      | [h] => some (.initB h)
      | _ => none
    else if name = ['W', 'O', 'R', 'D'] then
      match ns with
      | [w] => some (.word w)
      | _ => none
    else if name = ['F', 'I', 'N', 'I', 'S', 'H'] then
      match ns with
      | [] => some .finish
      | _ => none
    else if name = ['S', 'T', 'R', 'E', 'A', 'M', '.', 'A'] then
      match ns with
      | h :: ws => some (.streamA h ws)
      | [] => none
    else if name = ['S', 'T', 'R', 'E', 'A', 'M', '.', 'B'] then
      match ns with
      | h :: ws => some (.streamB h ws)
      | [] => none
    else none

/-- The command words of a list of lines; a line that is empty or a comment stands for none. -/
def assemble : List (List Char) → Option (List CmdWord)
  | [] => some []
  | l :: ls =>
    if (lineText l).isEmpty then assemble ls
    else
      match parseLine l with
      | none => none
      | some p =>
        match assembleLine p, assemble ls with
        | some a, some b => some (a ++ b)
        | _, _ => none

/-- One hexadecimal digit. -/
def hexDigit (v : BitVec 4) : Char :=
  if v.toNat < 10 then Char.ofNat (48 + v.toNat) else Char.ofNat (55 + v.toNat)

/-- A command word written as `0x` and nine hexadecimal digits (R48). -/
def wordText (c : CmdWord) : List Char :=
  '0' :: 'x' :: [32, 28, 24, 20, 16, 12, 8, 4, 0].map fun k => hexDigit (c.extractLsb' k 4)

end Sys2Proof.Machine
end

