-- ==== Sys2Proof/Safety.lean ====
section
/-! DEFINITION. The terms claims are made in: the invariant of the state (spec/10_state.md R22), the range of a character
(spec/42_word_codec.md R87), the host's contract (spec/70_reset_and_hazards.md R122, R124), the size law's function
(spec/43_encoder_commands.md R95) and the stream a session stands for, written as a function of its inputs alone. -/

namespace Sys2Proof.Machine

/-- The character lies in `[0x20, 0x7F]` (R87). -/
def inRange (c : Chr) : Bool := 0x20 ≤ c.toNat && c.toNat ≤ 0x7F

/-- The sum holds a value in `[0, 254]` (10_state.md R12). -/
def sumInRange : Option (BitVec 8) → Bool
  | some v => v.toNat ≤ 254
  | none => false

/-- The session fields hold values: `spacer`, and the accumulator of the session's variant and no other (R22, R12, R13). -/
def Record.sessionHolds (r : Record) : Bool :=
  r.spacer.isSome &&
    match r.variant with
    | some .A => sumInRange r.sum1 && sumInRange r.sum2 && r.chk.isNone
    | some .B => r.chk.isSome && r.sum1.isNone && r.sum2.isNone
    | none => false

/-- Which fields hold values in which phase (R21, R22). -/
def Record.coherent (r : Record) : Bool :=
  match r.phase with
  | .idle => r.spacer.isNone && r.sum1.isNone && r.sum2.isNone && r.chk.isNone && r.variant.isNone
  | .fresh => r.sessionHolds
  | .streaming => r.sessionHolds
  | .finished => r.sessionHolds

/-- A session is open: WORD and FINISH are valid (R94). -/
def Phase.isOpen : Phase → Bool
  | .idle => false
  | .fresh => true
  | .streaming => true
  | .finished => false

/-- What holds of a command in progress from the record `r`: one to eight characters are left, all in range; it began in
an open session with no fault, and the record it will write is a coherent one of the same session (R37, R92, R93). -/
def InFlight.coherent (r : Record) (f : InFlight) : Bool :=
  !f.pending.isEmpty && decide (f.pending.length ≤ 8) && f.pending.all inRange &&
    decide (r.fault = .none) && r.phase.isOpen &&
    f.target.coherent && decide (f.target.fault = .none) && decide (f.target.variant = r.variant) &&
    decide (f.target.phase = .streaming ∨ f.target.phase = .finished)

/-- The invariant: the record is coherent, and a command is in progress only while the output channel does not accept. -/
def State.Inv (s : State) : Bool :=
  s.st.coherent &&
    match s.inFlight with
    | none => true
    | some f => f.coherent s.st && !s.sink.accepts

/-- The host's contract: WORD and FINISH only in an open session (R122, R124), from the phase `p` on. -/
def sessionOk : Phase → List Instr → Bool
  | _, [] => true
  | _, .initA _ :: is => sessionOk .fresh is
  | _, .initB _ :: is => sessionOk .fresh is
  | p, .word _ :: is => p.isOpen && sessionOk .streaming is
  | p, .finish :: is => p.isOpen && sessionOk .finished is

/-- `size(word_count)` (R95). -/
def size (n : Nat) : Nat := 3 + 8 * n

/-- The host actions that present these commands, as an assembler writes them. -/
def present (is : List Instr) : List HostEvent := is.map fun i => .command (encode i)

/-- The commands the host presents in a list of actions. -/
def commandsIn : List HostEvent → List CmdWord
  | [] => []
  | .command c :: es => c :: commandsIn es
  | .sink _ :: es => commandsIn es
  | .abort :: es => commandsIn es
  | .reset :: es => commandsIn es

/-- The INIT that starts a session of the variant with this header. -/
def initOf : Variant → Word → Instr
  | .A, h => .initA h
  | .B, h => .initB h

/-- The accumulator after the variant's INIT with this header (R61, R67). -/
def firstAccumulator : Variant → Spacer → Accumulator
  | .A, _ => .fletcher initA.1 initA.2
  | .B, h => .crc (initB h)

/-- The characters of the words from an accumulator and a spacer, and the accumulator after them (R84, R74). -/
def streamWords (T : CodeTable) : Accumulator → Spacer → List Word → List Chr × Accumulator
  | acc, _, [] => ([], acc)
  | acc, sp, w :: ws =>
    let g := group w sp
    let e := engineWord T acc w g
    let r := streamWords T e.1 e.2 ws
    (g ++ r.1, r.2)

/-- The stream of a complete session (30_encoding.md R54) as a function of variant, header, words and table (R96). -/
def streamOf (T : CodeTable) (v : Variant) (operand : Word) (ws : List Word) : List Chr :=
  let r := streamWords T (firstAccumulator v (headerOf operand)) (headerOf operand) ws
  r.1 ++ pack565 (checkValue r.2)

end Sys2Proof.Machine
end

