-- ==== Sys2Proof/Certificates/Slice0/Obligations.lean ====
section
/-! DEFINITION. The statements about the model, for the provers. Each says which rule of spec/ it formalises. -/

open Sys2Proof Sys2Proof.Machine

/-! ## Reset, decoding, the step -/

/-- R21, R120: the reset values, and what asserting reset does, with a command in progress or without. Characters
delivered stay delivered; a command in progress is abandoned with its record unwritten. The table is a constant outside
State, so no step changes it. -/
def Obligations.ResetSetsEveryField : Prop :=
  State.reset.st =
      { spacer := none, sum1 := none, sum2 := none, chk := none, variant := none, phase := .idle, fault := .none } ∧
  State.reset.busy = false ∧
  (∀ (s : State) (rest : List HostEvent), s.input = .reset :: rest →
    step s = .next { s with input := rest, st := State.reset.st, inFlight := none })

/-- R43 and the words of spec/95_test_vectors.md: written-out words decode to the commands they stand for. -/
def Obligations.WrittenOutWordsDecode : Prop :=
  decode 0b00000000000000000000000000001010101#35 = .command (.initA 0x55#32) ∧
  decode 0b00111111111111111111111111111000000#35 = .command (.initB 0xFFFFFFC0#32) ∧
  decode 0b01000010010001101000101011001111000#35 = .command (.word 0x12345678#32) ∧
  decode 0b01111011110101011011011111011101111#35 = .command (.word 0xDEADBEEF#32) ∧
  decode 0b10011111111111111111111111111111111#35 = .command .finish ∧
  decode 0b11000000000000000000000000000000000#35 = .rejected .reservedOp

/-- R43: the patterns are disjoint and cover all command words, and the decoder is the table: each word is selected by
exactly one row (the reserved one counted), and it decodes as that row says, with the operand of R41. -/
def Obligations.OpcodePatternsPartitionTheWords : Prop :=
  (∀ c : CmdWord, ∃ r ∈ opcodeRows ++ [rowReserved], rowSelects r c = true ∧
    ∀ r' ∈ opcodeRows ++ [rowReserved], rowSelects r' c = true → r' = r) ∧
  (∀ c : CmdWord,
    (c &&& 0x700000000#35 = 0x000000000#35 → decode c = .command (.initA (c.extractLsb' 0 32))) ∧
    (c &&& 0x700000000#35 = 0x100000000#35 → decode c = .command (.initB (c.extractLsb' 0 32))) ∧
    (c &&& 0x600000000#35 = 0x200000000#35 → decode c = .command (.word (c.extractLsb' 0 32))) ∧
    (c &&& 0x600000000#35 = 0x400000000#35 → decode c = .command .finish) ∧
    (c &&& 0x600000000#35 = 0x600000000#35 → decode c = .rejected .reservedOp))

/-- R41 to R46: decoding what the encoder writes gives the instruction back, every operand at every value. -/
def Obligations.DecodeOfEncode : Prop :=
  ∀ i : Instr, i.wellFormed = true → decode (encode i) = .command i

/-- R48: the other direction, for the words an assembler writes (0 in every ignored bit). -/
def Obligations.EncodeOfDecodeOnCanonicalWords : Prop :=
  ∀ (c : CmdWord) (i : Instr), isCanonical c = true → decode c = .command i → encode i = c

/-- R48, R49: a well-formed line assembles, to words with 0 in every ignored bit, which decode to the commands the line
stands for; a line that names one command stands for that command with its operand; STREAM stands for INIT, one WORD per
word in order, FINISH. -/
def Obligations.AssembledLinesDecodeToTheirCommands : Prop :=
  (∀ l : SourceLine, l.wellFormed = true → ∃ cs, assembleLine l = some cs ∧
    cs.map decode = (expandLine l).map Decoded.command ∧ cs.all isCanonical = true) ∧
  (∀ n : Nat, expandLine (.initA n) = [.initA (BitVec.ofNat 32 n)] ∧ expandLine (.initB n) = [.initB (BitVec.ofNat 32 n)] ∧
    expandLine (.word n) = [.word (BitVec.ofNat 32 n)]) ∧
  expandLine .finish = [.finish] ∧
  (∀ (h : Nat) (ws : List Nat),
    expandLine (.streamA h ws) =
      expandLine (.initA h) ++ ws.flatMap (fun w => expandLine (.word w)) ++ expandLine .finish ∧
    expandLine (.streamB h ws) =
      expandLine (.initB h) ++ ws.flatMap (fun w => expandLine (.word w)) ++ expandLine .finish)

/-- R46: the bits a command ignores have no effect on anything: WORD's VAR, FINISH's VAR and OPERAND. -/
def Obligations.IgnoredBitsHaveNoEffect : Prop :=
  ∀ (s : State) (c c' : CmdWord) (rest : List HostEvent), s.inFlight = none →
    (opField c = 0b01#2 ∧ opField c' = 0b01#2 ∧ operandField c = operandField c') ∨
      (opField c = 0b10#2 ∧ opField c' = 0b10#2) →
    step { s with input := .command c :: rest } = step { s with input := .command c' :: rest }

/-- R44, R127: only the low 6 bits of an INIT operand matter; excess bits are discarded and raise no fault. -/
def Obligations.HeaderIsTruncatedToSixBits : Prop :=
  (∀ (h h' : Word) (s : State), h.toNat % 64 = h'.toNat % 64 →
    exec (.initA h) s = exec (.initA h') s ∧ exec (.initB h) s = exec (.initB h') s) ∧
  (∀ (h : Word) (s : State), s.inFlight = none → s.st.fault = .none →
    (∃ t, exec (.initA h) s = .next t ∧ t.st.fault = .none ∧ t.st.spacer = some (BitVec.ofNat 6 (h.toNat % 64))) ∧
    (∃ t, exec (.initB h) s = .next t ∧ t.st.fault = .none ∧ t.st.spacer = some (BitVec.ofNat 6 (h.toNat % 64))))

/-- R94: one step runs one command. The command at the head of the input, decoding to `i`, is taken off it and run. -/
def Obligations.StepRunsTheDecodedCommand : Prop :=
  ∀ (s : State) (c : CmdWord) (rest : List HostEvent) (i : Instr), s.inFlight = none →
    s.input = .command c :: rest → decode c = .command i → step s = exec i { s with input := rest }

/-- R114: with no command presented the core waits, holding its state; that a step then answers it is log entry 7. -/
def Obligations.CoreWaitsWhenNothingIsPresented : Prop :=
  ∀ s : State, s.input = [] → step s = .next s

/-! ## The commands' results -/

/-- R90 whole: INIT.A's encoding and effect, in every phase; a core already faulted ignores it. -/
def Obligations.InitAStartsAVariantASession : Prop :=
  (∀ c : CmdWord, c &&& 0x700000000#35 = 0x000000000#35 → decode c = .command (.initA (c.extractLsb' 0 32))) ∧
  (∀ (h : Word) (s : State), s.inFlight = none → s.st.fault = .none →
    exec (.initA h) s =
      .next { s with st := { variant := some .A, spacer := some (h.extractLsb' 0 6), sum1 := some 0#8, sum2 := some 0#8,
                             chk := none, phase := .fresh, fault := .none } }) ∧
  (∀ (h : Word) (s : State), s.st.fault ≠ .none → exec (.initA h) s = .next s)

/-- R91 whole: INIT.B's encoding and effect, in every phase; a core already faulted ignores it. -/
def Obligations.InitBStartsAVariantBSession : Prop :=
  (∀ c : CmdWord, c &&& 0x700000000#35 = 0x100000000#35 → decode c = .command (.initB (c.extractLsb' 0 32))) ∧
  (∀ (h : Word) (s : State), s.inFlight = none → s.st.fault = .none →
    exec (.initB h) s =
      .next { s with st := { variant := some .B, spacer := some (h.extractLsb' 0 6), sum1 := none, sum2 := none,
                             chk := some (crcByte 0x1AF7#16 ((h.extractLsb' 0 6).setWidth 8)), phase := .fresh,
                             fault := .none } }) ∧
  (∀ (h : Word) (s : State), s.st.fault ≠ .none → exec (.initB h) s = .next s)

/-- R92 whole: WORD's encoding, its effect under both variants on an output channel that takes its 8 characters, its two
faults, and a faulted core ignoring it. -/
def Obligations.WordEncodesOneWord : Prop :=
  (∀ c : CmdWord, c &&& 0x600000000#35 = 0x200000000#35 → decode c = .command (.word (c.extractLsb' 0 32))) ∧
  (∀ (w : Word) (s : State) (sp : Spacer) (s1 s2 : BitVec 8), s.inFlight = none → s.st.fault = .none →
    (s.st.phase = .fresh ∨ s.st.phase = .streaming) → s.sink.hasRoom 8 = true →
    s.st.spacer = some sp → s.st.variant = some .A → s.st.sum1 = some s1 → s.st.sum2 = some s2 →
    exec (.word w) s =
      .next { s with
        st := { s.st with
          sum1 := some (fletcherWord Config.crc8Table s1 s2 (group w sp)).1,
          sum2 := some (fletcherWord Config.crc8Table s1 s2 (group w sp)).2,
          spacer := some ((fletcherWord Config.crc8Table s1 s2 (group w sp)).2.extractLsb' 0 6),
          phase := .streaming },
        out := s.out ++ group w sp, sink := s.sink.after 8 }) ∧
  (∀ (w : Word) (s : State) (sp : Spacer) (chk : BitVec 16), s.inFlight = none → s.st.fault = .none →
    (s.st.phase = .fresh ∨ s.st.phase = .streaming) → s.sink.hasRoom 8 = true →
    s.st.spacer = some sp → s.st.variant = some .B → s.st.chk = some chk →
    exec (.word w) s =
      .next { s with
        st := { s.st with
          chk := some (crcWord chk w), spacer := some (spacerB (crcWord chk w)), phase := .streaming },
        out := s.out ++ group w sp, sink := s.sink.after 8 }) ∧
  (∀ (w : Word) (s : State), s.inFlight = none → s.st.fault = .none → s.st.phase = .idle →
    exec (.word w) s = .next { s with st := { s.st with fault := .noSession } }) ∧
  (∀ (w : Word) (s : State), s.inFlight = none → s.st.fault = .none → s.st.phase = .finished →
    exec (.word w) s = .next { s with st := { s.st with fault := .afterFinish } }) ∧
  (∀ (w : Word) (s : State), s.st.fault ≠ .none → exec (.word w) s = .next s)

/-- R93 whole: FINISH's encoding, its effect under both variants on an output channel that takes its 3 characters, its
two faults, and a faulted core ignoring it. -/
def Obligations.FinishEmitsTheTrailer : Prop :=
  (∀ c : CmdWord, c &&& 0x600000000#35 = 0x400000000#35 → decode c = .command .finish) ∧
  (∀ (s : State) (s1 s2 : BitVec 8), s.inFlight = none → s.st.fault = .none →
    (s.st.phase = .fresh ∨ s.st.phase = .streaming) → s.sink.hasRoom 3 = true →
    s.st.variant = some .A → s.st.sum1 = some s1 → s.st.sum2 = some s2 →
    exec .finish s =
      .next { s with st := { s.st with phase := .finished }, out := s.out ++ pack565 (s2 ++ s1),
                     sink := s.sink.after 3 }) ∧
  (∀ (s : State) (chk : BitVec 16), s.inFlight = none → s.st.fault = .none →
    (s.st.phase = .fresh ∨ s.st.phase = .streaming) → s.sink.hasRoom 3 = true →
    s.st.variant = some .B → s.st.chk = some chk →
    exec .finish s =
      .next { s with st := { s.st with phase := .finished }, out := s.out ++ pack565 chk, sink := s.sink.after 3 }) ∧
  (∀ s : State, s.inFlight = none → s.st.fault = .none → s.st.phase = .idle →
    exec .finish s = .next { s with st := { s.st with fault := .noSession } }) ∧
  (∀ s : State, s.inFlight = none → s.st.fault = .none → s.st.phase = .finished →
    exec .finish s = .next { s with st := { s.st with fault := .afterFinish } }) ∧
  (∀ s : State, s.st.fault ≠ .none → exec .finish s = .next s)

/-! ## Faults -/

/-- R102: WORD or FINISH with phase Idle raises NoSession. -/
def Obligations.CommandWithoutSessionRaisesNoSession : Prop :=
  ∀ (i : Instr) (s : State), ((∃ w, i = .word w) ∨ i = .finish) → s.inFlight = none → s.st.fault = .none →
    s.st.phase = .idle → exec i s = .next { s with st := { s.st with fault := .noSession } }

/-- R103: WORD or FINISH with phase Finished raises AfterFinish, and emits nothing. -/
def Obligations.CommandAfterFinishRaisesAfterFinish : Prop :=
  ∀ (i : Instr) (s : State), ((∃ w, i = .word w) ∨ i = .finish) → s.inFlight = none → s.st.fault = .none →
    s.st.phase = .finished → exec i s = .next { s with st := { s.st with fault := .afterFinish } }

/-- R104, R47: a command word with OP = 11 raises IllegalCommand in any phase. -/
def Obligations.ReservedOpRaisesIllegalCommand : Prop :=
  ∀ (s : State) (c : CmdWord) (rest : List HostEvent), s.inFlight = none → s.st.fault = .none →
    s.input = .command c :: rest → opField c = 0b11#2 →
    step s = .next { s with input := rest, st := { s.st with fault := .illegalCommand } }

/-- R107: a faulted core accepts and ignores every command word, a reserved one and INIT included. -/
def Obligations.FaultedCoreIgnoresEveryCommand : Prop :=
  (∀ (i : Instr) (s : State), s.st.fault ≠ .none → exec i s = .next s) ∧
  (∀ (s : State) (c : CmdWord) (rest : List HostEvent), s.inFlight = none → s.st.fault ≠ .none →
    s.input = .command c :: rest → step s = .next { s with input := rest })

/-- R16, R108: once a cause is recorded no step changes it, or any field of the record, but reset. Premise: the
invariant (a core with a command in progress has no fault recorded). -/
def Obligations.OnlyResetClearsAFault : Prop :=
  ∀ s t : State, s.Inv = true → s.st.fault ≠ .none → step s = .next t →
    t.out = s.out ∧ (t.st = s.st ∨ ∃ rest, s.input = .reset :: rest ∧ t.st = Record.reset)

/-- R106: faults are precise. A step that records a cause leaves every other field of the record as it was, emits
nothing, and leaves no command in progress; of the input one action of the host is gone, the first of all, or, of a busy
core, the first behind the commands that wait. That presented commands wait, and stay in the input, is the model's
reading, log entry 10. -/
def Obligations.FaultEntryIsPrecise : Prop :=
  ∀ s t : State, s.Inv = true → s.st.fault = .none → step s = .next t → t.st.fault ≠ .none →
    ∃ (cs : List CmdWord) (e : HostEvent) (rest : List HostEvent),
      s.input = cs.map HostEvent.command ++ e :: rest ∧ (s.busy = false → cs = []) ∧
      t = { s with input := cs.map HostEvent.command ++ rest, inFlight := none,
                   st := { s.st with fault := t.st.fault } } ∧
      t.busy = false

/-- R101: which step records which cause. That the abort of a busy core is taken behind presented commands, which stay in
the input, is the model's reading, log entry 10. -/
def Obligations.EachCauseHasItsOwnTrigger : Prop :=
  ∀ s t : State, s.Inv = true → s.st.fault = .none → step s = .next t →
    (t.st.fault = .noSession → s.st.phase = .idle ∧ ∃ c rest, s.input = .command c :: rest ∧
      (opField c = 0b01#2 ∨ opField c = 0b10#2)) ∧
    (t.st.fault = .afterFinish → s.st.phase = .finished ∧ ∃ c rest, s.input = .command c :: rest ∧
      (opField c = 0b01#2 ∨ opField c = 0b10#2)) ∧
    (t.st.fault = .illegalCommand → ∃ c rest, s.input = .command c :: rest ∧ opField c = 0b11#2) ∧
    (t.st.fault = .sinkAbort → s.busy = true ∧ ∃ (cs : List CmdWord) (rest : List HostEvent),
      s.input = cs.map HostEvent.command ++ .abort :: rest ∧ t.input = cs.map HostEvent.command ++ rest)

/-- R109, R98: the order of the checks. A reserved word in a core without session raises IllegalCommand, not NoSession;
a recorded fault comes before every check; otherwise an INIT, a WORD or a FINISH proceeds, and records no fault. -/
def Obligations.ChecksRunInOrder : Prop :=
  ∀ (s : State) (c : CmdWord) (rest : List HostEvent), s.Inv = true → s.inFlight = none → s.sink = .ready →
    s.input = .command c :: rest → ∃ t, step s = .next t ∧
    t.st.fault =
      (if s.st.fault ≠ .none then s.st.fault
       else if opField c = 0b11#2 then .illegalCommand
       else if opField c ≠ 0b00#2 ∧ s.st.phase = .idle then .noSession
       else if opField c ≠ 0b00#2 ∧ s.st.phase = .finished then .afterFinish
       else .none)

/-- R105: an abort ends the command in progress: what was accepted stays delivered, the rest is discarded, its record is
not written, SinkAbort is raised. -/
def Obligations.SinkAbortEndsTheCommand : Prop :=
  ∀ (s : State) (f : InFlight) (rest : List HostEvent), s.inFlight = some f → s.st.fault = .none →
    s.input = .abort :: rest →
    step s = .next { s with input := rest, inFlight := none, st := { s.st with fault := .sinkAbort } }

/-! ## Delivery -/

/-- R37, R125: a WORD on a channel that accepts only n of its 8 characters delivers those n in order and stays in
progress, busy, with the record unwritten; FINISH with its 3 characters the same. How far one step delivers is the
model's reading, log entry 11. -/
def Obligations.StalledCommandLeavesTheRecordUnwritten : Prop :=
  (∀ (w : Word) (s : State) (sp : Spacer) (n : Nat), s.Inv = true → s.inFlight = none → s.st.fault = .none →
    (s.st.phase = .fresh ∨ s.st.phase = .streaming) → s.st.spacer = some sp → s.sink = .room n → n < 8 →
    ∃ target, exec (.word w) s =
      .next { s with out := s.out ++ (group w sp).take n, sink := .room 0,
                     inFlight := some ⟨(group w sp).drop n, target⟩ }) ∧
  (∀ (s : State) (v : BitVec 16) (n : Nat), s.Inv = true → s.inFlight = none → s.st.fault = .none →
    (s.st.phase = .fresh ∨ s.st.phase = .streaming) → s.sink = .room n → n < 3 →
    ((∃ s1 s2, s.st.variant = some .A ∧ s.st.sum1 = some s1 ∧ s.st.sum2 = some s2 ∧ v = s2 ++ s1) ∨
      (s.st.variant = some .B ∧ s.st.chk = some v)) →
    exec .finish s =
      .next { s with out := s.out ++ (pack565 v).take n, sink := .room 0,
                     inFlight := some ⟨(pack565 v).drop n, { s.st with phase := .finished }⟩ })

/-- R94, R37: where and how often the channel stops does not matter: a command cut short by the channel, resumed by any
number of acceptances of any number of characters and at last let go on, ends in the very state of the command run on a
channel that accepts everything. The stop between two steps is the model's reading, log entry 11. -/
def Obligations.ResumedCommandEqualsTheAtomicOne : Prop :=
  ∀ (i : Instr) (s t : State) (n : Nat) (ms : List Nat) (rest : List HostEvent), s.inFlight = none →
    exec i { s with sink := .room n } = .next t →
    ∃ u, exec i { s with sink := .ready } = .next u ∧
      Host.Core.run Sys2Proof.core (ms.length + 1)
        { t with input := ms.map (fun m => HostEvent.sink (.room m)) ++ .sink .ready :: rest } =
          .next { u with input := rest }

/-- R125: while a command is in progress no presented command is accepted, and until it completes or is cut off the
record stays as it was before it (R37). That a presented command waits is the model's reading, log entry 10. -/
def Obligations.BusyCoreAcceptsNoCommand : Prop :=
  ∀ s t : State, s.busy = true → step s = .next t →
    commandsIn t.input = commandsIn s.input ∧ (t.busy = true → t.st = s.st)

/-- R125: with a channel that never accepts again, nothing but presented commands to come, the core stays busy for ever,
until reset or a sink abort. That the commands go on waiting through these is the model's reading, log entries 7 and
10. -/
def Obligations.BusyCoreStaysBusyWithoutTheSink : Prop :=
  (∀ (s : State) (cs : List CmdWord) (k : Nat), s.busy = true → s.input = cs.map HostEvent.command →
    Host.Core.run Sys2Proof.core k s = .next s) ∧
  (∀ (s : State) (cs : List CmdWord) (rest : List HostEvent), s.busy = true →
    s.input = cs.map HostEvent.command ++ .reset :: rest →
    step s = .next { s with input := cs.map HostEvent.command ++ rest, st := Record.reset, inFlight := none }) ∧
  (∀ (s : State) (cs : List CmdWord) (rest : List HostEvent), s.busy = true → s.st.fault = .none →
    s.input = cs.map HostEvent.command ++ .abort :: rest →
    step s = .next { s with input := cs.map HostEvent.command ++ rest, inFlight := none,
                            st := { s.st with fault := .sinkAbort } })

/-- R94, D22, R125, R37: once the channel accepts, a command in progress goes on. If it takes all the pending characters
they are delivered in order and the record is written; if it takes only n of them those are delivered, and the command
stays in progress with the rest and the same record to write, the record unwritten. That presented commands wait
meanwhile is the model's reading, log entry 10, and how far one step delivers, log entry 11. -/
def Obligations.AcceptingSinkCompletesTheCommand : Prop :=
  ∀ (s : State) (f : InFlight) (cs : List CmdWord) (rest : List HostEvent) (k : Sink), s.inFlight = some f →
    s.input = cs.map HostEvent.command ++ .sink k :: rest →
    (k.hasRoom f.pending.length = true →
      step s =
        .next { s with input := cs.map HostEvent.command ++ rest, inFlight := none, st := f.target,
                       out := s.out ++ f.pending, sink := k.after f.pending.length }) ∧
    (∀ n, k = .room n → n < f.pending.length →
      step s =
        .next { s with input := cs.map HostEvent.command ++ rest, inFlight := some ⟨f.pending.drop n, f.target⟩,
                       out := s.out ++ f.pending.take n, sink := .room 0 })

/-- R32, R87: a step only adds characters after those delivered before, at most 8, each in `[0x20, 0x7F]`. -/
def Obligations.OutputOnlyGrowsByCharactersInRange : Prop :=
  ∀ s t : State, s.Inv = true → step s = .next t →
    ∃ cs : List Chr, t.out = s.out ++ cs ∧ cs.length ≤ 8 ∧ ∀ c ∈ cs, 0x20 ≤ c.toNat ∧ c.toNat ≤ 0x7F

/-! ## Frames (R20) -/

/-- R20, R90, R91: an INIT emits nothing and leaves the input, the channel, a command in progress and the fault as they
were; where it is not ignored (nothing changes then) it leaves the other variant's accumulator without a value. That a
command given to a busy core changes nothing, a command in progress included, is the model's reading, log entry 9. -/
def Obligations.InitFrame : Prop :=
  (∀ (h : Word) (s t : State), exec (.initA h) s = .next t →
    t.out = s.out ∧ t.input = s.input ∧ t.sink = s.sink ∧ t.inFlight = s.inFlight ∧ t.st.fault = s.st.fault ∧
    (t = s ∨ (t.st.phase = .fresh ∧ t.st.variant = some .A ∧ t.st.chk = none))) ∧
  (∀ (h : Word) (s t : State), exec (.initB h) s = .next t →
    t.out = s.out ∧ t.input = s.input ∧ t.sink = s.sink ∧ t.inFlight = s.inFlight ∧ t.st.fault = s.st.fault ∧
    (t = s ∨ (t.st.phase = .fresh ∧ t.st.variant = some .B ∧ t.st.sum1 = none ∧ t.st.sum2 = none)))

/-- R20, R92: WORD leaves `variant`, the input and the characters already delivered as they were, and the accumulator of
the other variant; it adds only the first characters of its group, and where it records a fault nothing else changes.
That a command given to a busy core changes nothing is the model's reading, log entry 9. -/
def Obligations.WordFrame : Prop :=
  ∀ (w : Word) (s t : State), exec (.word w) s = .next t →
    t.input = s.input ∧
    (t.out = s.out ∨ ∃ sp n, s.st.spacer = some sp ∧ t.out = s.out ++ (group w sp).take n) ∧
    t.st.variant = s.st.variant ∧
    (s.st.variant = some .A → t.st.chk = s.st.chk) ∧
    (s.st.variant = some .B → t.st.sum1 = s.st.sum1 ∧ t.st.sum2 = s.st.sum2) ∧
    (t.st.phase = s.st.phase ∨ t.st.phase = .streaming) ∧
    (t.st.fault ≠ s.st.fault →
      t = { s with st := { s.st with fault := t.st.fault } } ∧
        (t.st.fault = .noSession ∨ t.st.fault = .afterFinish))

/-- R20, R93: FINISH leaves `spacer`, `sum1`, `sum2`, `chk`, `variant`, the input and the characters already delivered
as they were; it adds only the first characters of its trailer, and where it records a fault nothing else changes. That a
command given to a busy core changes nothing is the model's reading, log entry 9. -/
def Obligations.FinishFrame : Prop :=
  ∀ s t : State, exec .finish s = .next t →
    t.input = s.input ∧
    (t.out = s.out ∨ ∃ (v : BitVec 16) (n : Nat),
      ((∃ s1 s2, s.st.variant = some .A ∧ s.st.sum1 = some s1 ∧ s.st.sum2 = some s2 ∧ v = s2 ++ s1) ∨
        (s.st.variant = some .B ∧ s.st.chk = some v)) ∧
      t.out = s.out ++ (pack565 v).take n) ∧
    t.st.spacer = s.st.spacer ∧ t.st.sum1 = s.st.sum1 ∧
    t.st.sum2 = s.st.sum2 ∧ t.st.chk = s.st.chk ∧ t.st.variant = s.st.variant ∧
    (t.st.phase = s.st.phase ∨ t.st.phase = .finished) ∧
    (t.st.fault ≠ s.st.fault →
      t = { s with st := { s.st with fault := t.st.fault } } ∧
        (t.st.fault = .noSession ∨ t.st.fault = .afterFinish))

/-! ## Whole-machine rules -/

/-- R21, R22: the invariant holds after reset. -/
def Obligations.ResetMeetsTheInvariant : Prop := State.reset.Inv = true

/-- R22, R12: from every state that meets the invariant a step gives one that does: outside Idle the session's fields
hold values, the sums in `[0, 254]`, the other variant's accumulator none; in Idle none hold a value. -/
def Obligations.StepKeepsTheInvariant : Prop :=
  ∀ s t : State, s.Inv = true → step s = .next t → t.Inv = true

/-- R10, R22, R100: no rule reads a field that holds no value: from a state that meets the invariant every step answers a
next state, whatever the host does. -/
def Obligations.StepNeverStops : Prop :=
  ∀ s : State, s.Inv = true → ∃ t, step s = .next t

/-- R15: the variant does not change inside a session: only an accepted INIT (to the variant its VAR bit says, R42) and
reset change it. The action is the one the step took: the first of all, or, of a busy core, the first behind the commands
that wait. That a reset of a busy core is taken behind presented commands, which stay in the input, is the model's
reading, log entry 10. -/
def Obligations.VariantChangesOnlyByInitOrReset : Prop :=
  ∀ s t : State, s.Inv = true → step s = .next t → t.st.variant ≠ s.st.variant →
    (∃ c rest, s.input = .command c :: rest ∧ opField c = 0b00#2 ∧
      t.st.variant = some (if varField c = 0#1 then .A else .B)) ∨
    (∃ (cs : List CmdWord) (rest : List HostEvent), s.input = cs.map HostEvent.command ++ .reset :: rest ∧
      t.input = cs.map HostEvent.command ++ rest ∧ (s.busy = false → cs = []) ∧ t.st.variant = none)

/-- R94: the table of phases and commands, for a core with no fault whose channel accepts: the phase after, and how many
characters. -/
def Obligations.PhaseTransitionTable : Prop :=
  ∀ s : State, s.Inv = true → s.inFlight = none → s.st.fault = .none → s.sink = .ready →
    (∀ h, (∃ t, exec (.initA h) s = .next t ∧ t.st.phase = .fresh ∧ t.out.length = s.out.length) ∧
          (∃ t, exec (.initB h) s = .next t ∧ t.st.phase = .fresh ∧ t.out.length = s.out.length)) ∧
    (s.st.phase = .fresh ∨ s.st.phase = .streaming →
      (∀ w, ∃ t, exec (.word w) s = .next t ∧ t.st.phase = .streaming ∧ t.out.length = s.out.length + 8 ∧
        t.st.fault = .none) ∧
      (∃ t, exec .finish s = .next t ∧ t.st.phase = .finished ∧ t.out.length = s.out.length + 3 ∧
        t.st.fault = .none)) ∧
    (s.st.phase = .idle →
      (∀ w, exec (.word w) s = .next { s with st := { s.st with fault := .noSession } }) ∧
      exec .finish s = .next { s with st := { s.st with fault := .noSession } }) ∧
    (s.st.phase = .finished →
      (∀ w, exec (.word w) s = .next { s with st := { s.st with fault := .afterFinish } }) ∧
      exec .finish s = .next { s with st := { s.st with fault := .afterFinish } }) ∧
    (∀ c rest, opField c = 0b11#2 →
      step { s with input := .command c :: rest } =
        .next { s with input := rest, st := { s.st with fault := .illegalCommand } })

/-- R55, R14, R101: the bits of the status output in every state, Idle, faulted and busy ones included; bit 2 where
`variant` holds a value (where it holds none no claim may rest on it: I12, log entry 12). -/
def Obligations.StatusOutputBits : Prop :=
  ∀ s : State,
    s.status.extractLsb' 0 2 =
      (match s.st.phase with | .idle => 0#2 | .fresh => 1#2 | .streaming => 2#2 | .finished => 3#2) ∧
    (∀ v, s.st.variant = some v → s.status.getLsbD 2 = (match v with | .A => false | .B => true)) ∧
    s.status.extractLsb' 3 3 =
      (match s.st.fault with
        | .none => 0#3 | .noSession => 1#3 | .afterFinish => 2#3 | .illegalCommand => 3#3 | .sinkAbort => 4#3) ∧
    s.status.getLsbD 6 = s.inFlight.isSome

/-- R55: on a channel that accepts every character every command is one atomic step, so busy reads 0 after each. The
channel as a field and as actions is the model's own, log entry 3. -/
def Obligations.BusyReadsZeroBetweenSteps : Prop :=
  ∀ s t : State, s.sink = .ready → s.busy = false → (∀ k, HostEvent.sink k ∈ s.input → k = .ready) →
    step s = .next t → t.status.getLsbD 6 = false ∧ t.sink = .ready

/-! ## Word codec -/

/-- R80, R82, R83, R84: the group of a word, field by field. -/
def Obligations.GroupLayout : Prop :=
  ∀ (w : Word) (s : Spacer), ∃ xr : BitVec 6,
    xr = (w.extractLsb' 0 5).setWidth 6 ^^^ w.extractLsb' 5 6 ^^^ (w.extractLsb' 11 5).setWidth 6 ^^^ s ^^^
      (w.extractLsb' 16 5).setWidth 6 ^^^ w.extractLsb' 21 6 ^^^ (w.extractLsb' 27 5).setWidth 6 ^^^ 0x3F#6 ∧
    group w s =
      [(w.extractLsb' 0 5).setWidth 8 ||| 0x20#8, (w.extractLsb' 5 6).setWidth 8 ||| 0x40#8,
       (w.extractLsb' 11 5).setWidth 8 ||| 0x20#8, s.setWidth 8 ||| 0x40#8,
       (w.extractLsb' 16 5).setWidth 8 ||| 0x20#8, (w.extractLsb' 21 6).setWidth 8 ||| 0x40#8,
       (w.extractLsb' 27 5).setWidth 8 ||| 0x20#8, xr.setWidth 8 ||| 0x40#8]

/-- R86: with the tags stripped, the exclusive OR of the 8 fields of a group is 0x3F. -/
def Obligations.ParityLaw : Prop :=
  ∀ (w : Word) (s : Spacer), ∃ q0 s0 q1 s1 q2 s2 q3 s3 : Chr, group w s = [q0, s0, q1, s1, q2, s2, q3, s3] ∧
    (q0 &&& 0x1F#8) ^^^ (s0 &&& 0x3F#8) ^^^ (q1 &&& 0x1F#8) ^^^ (s1 &&& 0x3F#8) ^^^ (q2 &&& 0x1F#8) ^^^
      (s2 &&& 0x3F#8) ^^^ (q3 &&& 0x1F#8) ^^^ (s3 &&& 0x3F#8) = 0x3F#8

/-- R87, R85: a group has 8 characters; those at even positions lie in `[0x20, 0x3F]`, those at odd ones in
`[0x40, 0x7F]`. -/
def Obligations.GroupCharactersInRange : Prop :=
  ∀ (w : Word) (s : Spacer), (group w s).length = 8 ∧
    ∀ (p : Nat) (c : Chr), (group w s)[p]? = some c →
      if p % 2 = 0 then 0x20 ≤ c.toNat ∧ c.toNat ≤ 0x3F else 0x40 ≤ c.toNat ∧ c.toNat ≤ 0x7F

/-- R88: a group determines its word and its spacer. -/
def Obligations.GroupDeterminesWordAndSpacer : Prop :=
  ∀ (w w' : Word) (s s' : Spacer), group w s = group w' s' → w = w' ∧ s = s'

/-- R88: the order of two words shows: the first 16 characters of the streams `[a, b]` and `[b, a]` differ, unless
`a = b`. -/
def Obligations.OrderOfTwoWordsShows : Prop :=
  ∀ (T : CodeTable) (v : Variant) (h a b : Word),
    (streamOf T v h [a, b]).take 16 = (streamOf T v h [b, a]).take 16 → a = b

/-! ## Checksum engine -/

/-- R62: one Fletcher step: exact additions, the second of the sum just made. -/
def Obligations.FletcherStepAddsThePostAddSum : Prop :=
  ∀ (T : CodeTable) (s1 s2 : Nat) (c : Chr),
    fletcherStep T (s1, s2) c = (s1 + (T c).toNat, s2 + (s1 + (T c).toNat))

/-- R63: the word update in closed form; the same by reducing after every addition; the bounds of the sums before the
reduction, and of those stored. -/
def Obligations.FletcherWordClosedForm : Prop :=
  ∀ (T : CodeTable) (s1 s2 : BitVec 8) (g : List Chr), g.length = 8 → s1.toNat ≤ 254 → s2.toNat ≤ 254 →
    (fletcherWord T s1 s2 g).1.toNat = (s1.toNat + ((List.range 8).map fun i => (T (g.getD i 0)).toNat).sum) % 255 ∧
    (fletcherWord T s1 s2 g).2.toNat =
      (s2.toNat + 8 * s1.toNat + ((List.range 8).map fun i => (8 - i) * (T (g.getD i 0)).toNat).sum) % 255 ∧
    ((fletcherWord T s1 s2 g).1.toNat, (fletcherWord T s1 s2 g).2.toNat) =
      g.foldl (fun p c => ((p.1 + (T c).toNat) % 255, (p.2 + (p.1 + (T c).toNat) % 255) % 255))
        (s1.toNat, s2.toNat) ∧
    (fletcherSums T (s1.toNat, s2.toNat) g).1 ≤ 2294 ∧ (fletcherSums T (s1.toNat, s2.toNat) g).2 ≤ 18606 ∧
    (fletcherWord T s1 s2 g).1.toNat ≤ 254 ∧ (fletcherWord T s1 s2 g).2.toNat ≤ 254

/-- R18: WORD reads only the table entries 0x20 to 0x7F, and under variant B none at all. -/
def Obligations.OnlyTaggedTableEntriesAreRead : Prop :=
  (∀ (w : Word) (s : State), exec (.word w) s = execWordWith Config.crc8Table w s) ∧
  (∀ (T T' : CodeTable) (w : Word) (s : State),
    (∀ c : Chr, 0x20 ≤ c.toNat → c.toNat ≤ 0x7F → T c = T' c) → execWordWith T w s = execWordWith T' w s) ∧
  (∀ (T T' : CodeTable) (w : Word) (s : State), s.st.variant = some .B → execWordWith T w s = execWordWith T' w s)

/-- R65: one CRC round, at both widths, on numbers. -/
def Obligations.CrcRoundShiftsAndFeedsBack : Prop :=
  (∀ a : BitVec 16, (crcBit a).toNat =
    if a.toNat % 2 = 1 then (a.toNat / 2) ^^^ 0xA6BC else a.toNat / 2) ∧
  (∀ a : BitVec 32, (crcBit a).toNat =
    if a.toNat % 2 = 1 then (a.toNat / 2) ^^^ 0xA6BC else a.toNat / 2)

/-- R66, R67: the byte update is 8 rounds on the byte put into the low bits; the seed of variant B is the byte update of
0x1AF7 with the 6-bit spacer. -/
def Obligations.CrcByteIsEightRounds : Prop :=
  (∀ (crc : BitVec 16) (x : BitVec 8), crcByte crc x =
    crcBit (crcBit (crcBit (crcBit (crcBit (crcBit (crcBit (crcBit (crc ^^^ x.setWidth 16))))))))) ∧
  (∀ s : Spacer, initB s = crcByte 0x1AF7#16 (s.setWidth 8))

/-- R68: after the 32 rounds of the word update the high half of the accumulator is 0, so its low half is all of it. -/
def Obligations.CrcWordLeavesTheHighHalfZero : Prop :=
  ∀ (chk : BitVec 16) (w : Word),
    crcRounds 32 (w ^^^ chk.setWidth 32) = (crcWord chk w).setWidth 32

/-- R69, R35: the word update equals four byte updates, least significant byte first. -/
def Obligations.CrcWordIsFourByteUpdates : Prop :=
  ∀ (chk : BitVec 16) (w : Word),
    crcWord chk w =
      crcByte (crcByte (crcByte (crcByte chk (w.extractLsb' 0 8)) (w.extractLsb' 8 8)) (w.extractLsb' 16 8))
        (w.extractLsb' 24 8)

/-- R64: variant A's spacer is the low 6 bits of the sum. -/
def Obligations.SpacerAIsTheLowBits : Prop :=
  ∀ s2 : BitVec 8, (spacerA s2).toNat = s2.toNat % 64

/-- R70: which bit of `chk` each bit of variant B's spacer is, and that no other bit matters. -/
def Obligations.SpacerBInterleavesSixBits : Prop :=
  (∀ chk : BitVec 16,
    (spacerB chk).getLsbD 0 = chk.getLsbD 0 ∧ (spacerB chk).getLsbD 1 = chk.getLsbD 1 ∧
    (spacerB chk).getLsbD 2 = chk.getLsbD 5 ∧ (spacerB chk).getLsbD 3 = chk.getLsbD 6 ∧
    (spacerB chk).getLsbD 4 = chk.getLsbD 10 ∧ (spacerB chk).getLsbD 5 = chk.getLsbD 11) ∧
  (∀ chk chk' : BitVec 16, chk &&& 0x0C63#16 = chk' &&& 0x0C63#16 → spacerB chk = spacerB chk')

/-- R71, R72: the trailer of a value, and the value of each variant's accumulator. -/
def Obligations.TrailerLayout : Prop :=
  (∀ v : BitVec 16, pack565 v =
    [(v.extractLsb' 0 5).setWidth 8 ||| 0x20#8, (v.extractLsb' 5 6).setWidth 8 ||| 0x40#8,
     (v.extractLsb' 11 5).setWidth 8 ||| 0x20#8]) ∧
  (∀ s1 s2 : BitVec 8, (checkValue (.fletcher s1 s2)).toNat = s2.toNat * 256 + s1.toNat) ∧
  (∀ chk : BitVec 16, checkValue (.crc chk) = chk)

/-- R71, R53: a trailer determines its 16-bit value. -/
def Obligations.TrailerDeterminesItsValue : Prop :=
  ∀ v v' : BitVec 16, pack565 v = pack565 v' → v = v'

/-! ## Sessions -/

/-- R49, R54, R92, R93, R96: a complete session, run from any state of a core with no fault whose channel accepts, emits
exactly the stream its variant, header and words give, and ends in Finished with no fault. -/
def Obligations.SessionEmitsItsStream : Prop :=
  ∀ (v : Variant) (h : Word) (ws : List Word) (rest : List HostEvent) (s : State), s.inFlight = none →
    s.st.fault = .none → s.sink = .ready → s.input = present (streamCommands (initOf v h) ws) ++ rest →
    ∃ t, Host.Core.run Sys2Proof.core (ws.length + 2) s = .next t ∧
      t.out = s.out ++ streamOf Config.crc8Table v h ws ∧ t.st.phase = .finished ∧ t.st.fault = .none ∧
      t.inFlight = none ∧ t.input = rest

/-- R95: a complete session of N words emits exactly 8·N + 3 characters, whatever the values. -/
def Obligations.SizeLaw : Prop :=
  ∀ (v : Variant) (h : Word) (ws : List Word) (rest : List HostEvent) (s : State), s.inFlight = none →
    s.st.fault = .none → s.sink = .ready → s.input = present (streamCommands (initOf v h) ws) ++ rest →
    ∃ t, Host.Core.run Sys2Proof.core (ws.length + 2) s = .next t ∧ t.out.length = s.out.length + size ws.length ∧
      size ws.length = 3 + 8 * ws.length

/-- R96: the output of a session depends on variant, header and words alone: two cores, in whatever state they were,
emit the same characters for it. -/
def Obligations.SessionOutputIsDetermined : Prop :=
  ∀ (v : Variant) (h h' : Word) (ws : List Word) (rest rest' : List HostEvent) (s s' : State),
    h.toNat % 64 = h'.toNat % 64 →
    s.inFlight = none → s.st.fault = .none → s.sink = .ready →
    s'.inFlight = none → s'.st.fault = .none → s'.sink = .ready →
    s.input = present (streamCommands (initOf v h) ws) ++ rest →
    s'.input = present (streamCommands (initOf v h') ws) ++ rest' →
    ∃ t t' cs, Host.Core.run Sys2Proof.core (ws.length + 2) s = .next t ∧
      Host.Core.run Sys2Proof.core (ws.length + 2) s' = .next t' ∧ t.out = s.out ++ cs ∧ t'.out = s'.out ++ cs

/-- R97, R54: a session of N words abandoned before FINISH, on a channel that accepts every character, has emitted 8·N
characters, with no fault. That any number of steps with no command to come then answer the whole state as it is, is the
model's reading of R97 with R114, log entry 7. -/
def Obligations.AbandonedSession : Prop :=
  ∀ (v : Variant) (h : Word) (ws : List Word) (k : Nat) (s : State), s.inFlight = none →
    s.st.fault = .none → s.sink = .ready → s.input = present (initOf v h :: ws.map Instr.word) →
    ∃ t, Host.Core.run Sys2Proof.core (ws.length + 1) s = .next t ∧ t.out.length = s.out.length + 8 * ws.length ∧
      t.st.fault = .none ∧ t.st.phase = (if ws = [] then .fresh else .streaming) ∧
      Host.Core.run Sys2Proof.core k t = .next t

/-- R122, R124, R100: a host that keeps to the contract (WORD and FINISH only in an open session) never sees a fault,
whatever headers and words it sends. -/
def Obligations.ContractKeepingHostSeesNoFault : Prop :=
  ∀ (is : List Instr) (rest : List HostEvent) (s : State), s.Inv = true → s.inFlight = none →
    s.st.fault = .none → s.sink = .ready → s.input = present is ++ rest → sessionOk s.st.phase is = true →
    ∃ t, Host.Core.run Sys2Proof.core is.length s = .next t ∧ t.st.fault = .none ∧ t.input = rest ∧
      t.inFlight = none
end

