-- ==== Sys2Proof/Laws/Checksum.lean ====
section
/-! SUPPORT. Small lemmas of the checksum engine. -/

namespace Sys2Proof.Machine

@[simp] theorem fletcherSums_nil (T : CodeTable) (s : Nat × Nat) : fletcherSums T s [] = s := rfl

@[simp] theorem fletcherSums_cons (T : CodeTable) (s : Nat × Nat) (c : Chr) (g : List Chr) :
    fletcherSums T s (c :: g) = fletcherSums T (fletcherStep T s c) g := rfl

/-- The first sum of `fletcherWord` is reduced. -/
theorem fletcherWord_fst_le (T : CodeTable) (s1 s2 : BitVec 8) (g : List Chr) :
    (fletcherWord T s1 s2 g).1.toNat ≤ 254 := by
  have := Nat.mod_lt (fletcherSums T (s1.toNat, s2.toNat) g).1 (y := 255) (by decide)
  simp only [fletcherWord, fletcherModulus, BitVec.toNat_ofNat]
  omega

/-- The second sum of `fletcherWord` is reduced. -/
theorem fletcherWord_snd_le (T : CodeTable) (s1 s2 : BitVec 8) (g : List Chr) :
    (fletcherWord T s1 s2 g).2.toNat ≤ 254 := by
  have := Nat.mod_lt (fletcherSums T (s1.toNat, s2.toNat) g).2 (y := 255) (by decide)
  simp only [fletcherWord, fletcherModulus, BitVec.toNat_ofNat]
  omega

/-- Two tables that agree on the characters give the same sums. -/
theorem fletcherSums_congr (T T' : CodeTable) (s : Nat × Nat) (g : List Chr) (h : ∀ c ∈ g, T c = T' c) :
    fletcherSums T s g = fletcherSums T' s g := by
  induction g generalizing s with
  | nil => rfl
  | cons c g ih =>
    have hc : fletcherStep T s c = fletcherStep T' s c := by
      simp [fletcherStep, residue, h c (List.mem_cons_self ..)]
    rw [fletcherSums_cons, fletcherSums_cons, hc]
    exact ih _ fun d hd => h d (List.mem_cons_of_mem _ hd)

@[simp] theorem crcRounds_zero {n : Nat} (a : BitVec n) : crcRounds 0 a = a := rfl

theorem crcRounds_succ {n : Nat} (k : Nat) (a : BitVec n) : crcRounds (k + 1) a = crcRounds k (crcBit a) := rfl

theorem crcRounds_add {n : Nat} (j k : Nat) (a : BitVec n) : crcRounds (j + k) a = crcRounds k (crcRounds j a) := by
  induction j generalizing a with
  | zero => simp
  | succ j ih => rw [Nat.add_right_comm, crcRounds_succ, crcRounds_succ, ih]

/-- One round is linear in the accumulator. -/
theorem crcBit_xor {n : Nat} (a b : BitVec n) : crcBit (a ^^^ b) = crcBit a ^^^ crcBit b := by
  unfold crcBit
  rw [BitVec.getLsbD_xor]
  cases a.getLsbD 0 <;> cases b.getLsbD 0 <;> simp [BitVec.ushiftRight_xor_distrib]
  · ac_rfl
  · ac_rfl
  · rw [BitVec.xor_assoc, BitVec.xor_comm (crc16Poly.setWidth n), BitVec.xor_assoc,
      BitVec.xor_self, BitVec.xor_zero]

/-- `k` rounds are linear in the accumulator. -/
theorem crcRounds_xor {n : Nat} (k : Nat) (a b : BitVec n) :
    crcRounds k (a ^^^ b) = crcRounds k a ^^^ crcRounds k b := by
  induction k generalizing a b with
  | zero => rfl
  | succ k ih => rw [crcRounds_succ, crcBit_xor, ih]; rfl

end Sys2Proof.Machine
end

