-- ==== Sys2Proof/Laws/Codec.lean ====
section
/-! SUPPORT. Small lemmas of the word codec and the trailer. -/

namespace Sys2Proof.Machine

@[simp] theorem tagFrom_length (p : Nat) (l : List (BitVec 8)) : (tagFrom p l).length = l.length := by
  induction l generalizing p with
  | nil => rfl
  | cons f fs ih => simp [tagFrom, ih]

@[simp] theorem group_length (w : Word) (s : Spacer) : (group w s).length = 8 := by simp [group, payload]

@[simp] theorem pack565_length (v : BitVec 16) : (pack565 v).length = 3 := by simp [pack565]

/-- A quintet's character lies in 0x20 to 0x3F. -/
theorem quintet_range (x : BitVec 5) : 0x20 ≤ (x.setWidth 8 ||| quintetTag).toNat ∧ (x.setWidth 8 ||| quintetTag).toNat ≤ 0x3F := by
  revert x; decide

/-- A sextet's character lies in 0x40 to 0x7F. -/
theorem sextet_range (x : BitVec 6) : 0x40 ≤ (x.setWidth 8 ||| sextetTag).toNat ∧ (x.setWidth 8 ||| sextetTag).toNat ≤ 0x7F := by
  revert x; decide

/-- The tag of a quintet loses no bit. -/
theorem quintet_injective (x y : BitVec 5) (h : x.setWidth 8 ||| quintetTag = y.setWidth 8 ||| quintetTag) : x = y := by
  revert x y; decide

/-- The tag of a sextet loses no bit. -/
theorem sextet_injective (x y : BitVec 6) (h : x.setWidth 8 ||| sextetTag = y.setWidth 8 ||| sextetTag) : x = y := by
  revert x y; decide

end Sys2Proof.Machine
end

