-- ==== Sys2Proof/Laws/Decode.lean ====
section
/-! SUPPORT. Small lemmas of the opcode rows. -/

namespace Sys2Proof

theorem rowSelects_iff (r : OpcodeRow) (c : CmdWord) : rowSelects r c = true ↔ c &&& r.mask = r.pattern := by
  simp [rowSelects]

/-- An operand under a mask that looks only at bits 34:32 is nothing. -/
theorem operand_and_mask (x : Word) (m : CmdWord) (hm : ∀ i < 32, m.getLsbD i = false) :
    x.setWidth 35 &&& m = 0#35 := by
  apply BitVec.eq_of_getLsbD_eq
  intro i hi
  by_cases h : i < 32
  · simp [hm i h]
  · simp [BitVec.getLsbD_of_ge x i (by omega)]

/-- A row whose mask looks only at bits 34:32 selects its pattern with any operand. -/
theorem rowSelects_pattern_or (r : OpcodeRow) (x : Word) (hm : ∀ i < 32, r.mask.getLsbD i = false)
    (hp : r.pattern &&& r.mask = r.pattern) : rowSelects r (r.pattern ||| x.setWidth 35) = true := by
  rw [rowSelects_iff, BitVec.and_or_distrib_right, hp, operand_and_mask x r.mask hm, BitVec.or_zero]

/-- A row whose mask looks only at bits 34:32 does not select another pattern, whatever the operand. -/
theorem rowSelects_other_or (r : OpcodeRow) (p : CmdWord) (x : Word) (hm : ∀ i < 32, r.mask.getLsbD i = false)
    (hp : p &&& r.mask ≠ r.pattern) : rowSelects r (p ||| x.setWidth 35) = false := by
  rw [Bool.eq_false_iff, ne_eq, rowSelects_iff, BitVec.and_or_distrib_right, operand_and_mask x r.mask hm,
    BitVec.or_zero]
  exact hp

end Sys2Proof
end

