-- ==== Sys2Proof/Laws/State.lean ====
section
/-! SUPPORT. The small lemmas of the state's updates and of the accessors of Flags.lean and Ops.lean. -/

namespace Sys2Proof.Machine

section emit
variable (c : Chr) (s : State)
@[simp] theorem emit_st : (emit c s).st = s.st := rfl
@[simp] theorem emit_inFlight : (emit c s).inFlight = s.inFlight := rfl
@[simp] theorem emit_input : (emit c s).input = s.input := rfl
@[simp] theorem emit_out : (emit c s).out = s.out ++ [c] := rfl
@[simp] theorem emit_sink : (emit c s).sink = s.sink.after 1 := rfl
@[simp] theorem emit_busy : (emit c s).busy = s.busy := rfl
end emit

section raiseFault
variable (c : Cause) (s : State)
@[simp] theorem raiseFault_st : (raiseFault c s).st = recordCause c s.st := rfl
@[simp] theorem raiseFault_inFlight : (raiseFault c s).inFlight = none := rfl
@[simp] theorem raiseFault_input : (raiseFault c s).input = s.input := rfl
@[simp] theorem raiseFault_out : (raiseFault c s).out = s.out := rfl
@[simp] theorem raiseFault_sink : (raiseFault c s).sink = s.sink := rfl
end raiseFault

section applyReset
variable (s : State)
@[simp] theorem applyReset_st : (applyReset s).st = Record.reset := rfl
@[simp] theorem applyReset_inFlight : (applyReset s).inFlight = none := rfl
@[simp] theorem applyReset_input : (applyReset s).input = s.input := rfl
@[simp] theorem applyReset_out : (applyReset s).out = s.out := rfl
@[simp] theorem applyReset_sink : (applyReset s).sink = s.sink := rfl
end applyReset

section recordCause
variable (c : Cause) (r : Record)
theorem recordCause_of_none (h : r.fault = .none) : recordCause c r = { r with fault := c } := if_pos h
theorem recordCause_of_ne (h : r.fault ≠ .none) : recordCause c r = r := if_neg h
@[simp] theorem recordCause_spacer : (recordCause c r).spacer = r.spacer := by unfold recordCause; split <;> rfl
@[simp] theorem recordCause_sum1 : (recordCause c r).sum1 = r.sum1 := by unfold recordCause; split <;> rfl
@[simp] theorem recordCause_sum2 : (recordCause c r).sum2 = r.sum2 := by unfold recordCause; split <;> rfl
@[simp] theorem recordCause_chk : (recordCause c r).chk = r.chk := by unfold recordCause; split <;> rfl
@[simp] theorem recordCause_variant : (recordCause c r).variant = r.variant := by unfold recordCause; split <;> rfl
@[simp] theorem recordCause_phase : (recordCause c r).phase = r.phase := by unfold recordCause; split <;> rfl
end recordCause

section storeAccumulator
variable (a : Accumulator) (r : Record)
@[simp] theorem storeAccumulator_spacer : (storeAccumulator a r).spacer = r.spacer := by cases a <;> rfl
@[simp] theorem storeAccumulator_variant : (storeAccumulator a r).variant = r.variant := by cases a <;> rfl
@[simp] theorem storeAccumulator_phase : (storeAccumulator a r).phase = r.phase := by cases a <;> rfl
@[simp] theorem storeAccumulator_fault : (storeAccumulator a r).fault = r.fault := by cases a <;> rfl
end storeAccumulator

section sink
@[simp] theorem Sink.ready_accepts : Sink.ready.accepts = true := rfl
@[simp] theorem Sink.ready_after (k : Nat) : Sink.ready.after k = .ready := rfl
@[simp] theorem Sink.ready_hasRoom (k : Nat) : Sink.ready.hasRoom k = true := rfl
@[simp] theorem Sink.room_after (n k : Nat) : (Sink.room n).after k = .room (n - k) := rfl
@[simp] theorem Sink.after_zero (k : Sink) : k.after 0 = k := by cases k <;> rfl

theorem Sink.after_after (k : Sink) (a b : Nat) : (k.after a).after b = k.after (a + b) := by
  cases k with
  | ready => rfl
  | room n => simp [Sink.after, Nat.sub_sub]

theorem Sink.hasRoom_succ (k : Sink) (n : Nat) :
    k.hasRoom (n + 1) = true ↔ k.accepts = true ∧ (k.after 1).hasRoom n = true := by
  cases k with
  | ready => simp [Sink.hasRoom, Sink.accepts, Sink.after]
  | room m => simp only [Sink.hasRoom, Sink.accepts, Sink.after, decide_eq_true_eq, bne_iff_ne]; omega
end sink

theorem busy_of_inFlight_none {s : State} (h : s.inFlight = none) : s.busy = false := by simp [State.busy, h]

theorem busy_of_inFlight_some {s : State} {f : InFlight} (h : s.inFlight = some f) : s.busy = true := by
  simp [State.busy, h]

@[simp] theorem busy_withInput (s : State) (l : List HostEvent) : ({ s with input := l } : State).busy = s.busy := rfl

end Sys2Proof.Machine
end

