-- ==== Sys2Proof/Laws/Ops.lean ====
section
/-! SUPPORT. One lemma for each shared operation that says what it can do. -/

namespace Sys2Proof.Machine

/-! ## Delivery -/

@[simp] theorem deliver_nil (r : Record) (s : State) : deliver r [] s = { s with st := r, inFlight := none } := rfl

@[simp] theorem deliver_input (r : Record) (cs : List Chr) (s : State) : (deliver r cs s).input = s.input := by
  induction cs generalizing s with
  | nil => rfl
  | cons c cs ih => simp only [deliver]; split <;> simp [ih]

/-- A channel with room for all the characters takes them all, and the record is written. -/
theorem deliver_of_hasRoom (r : Record) (cs : List Chr) (s : State) (h : s.sink.hasRoom cs.length = true) :
    deliver r cs s =
      { s with st := r, inFlight := none, out := s.out ++ cs, sink := s.sink.after cs.length } := by
  induction cs generalizing s with
  | nil => simp
  | cons c cs ih =>
    obtain ⟨ha, hr⟩ := (Sink.hasRoom_succ s.sink cs.length).mp h
    rw [deliver, if_pos ha, ih (emit c s) hr]
    simp [emit, Sink.after_after, Nat.add_comm]

/-- A channel with room for only `n` of them takes those, and the command stays in progress. -/
theorem deliver_of_room_lt (r : Record) (cs : List Chr) (s : State) (n : Nat) (hs : s.sink = .room n)
    (hn : n < cs.length) :
    deliver r cs s =
      { s with inFlight := some ⟨cs.drop n, r⟩, out := s.out ++ cs.take n, sink := .room 0 } := by
  induction cs generalizing s n with
  | nil => simp at hn
  | cons c cs ih =>
    cases n with
    | zero =>
      obtain ⟨st, fl, inp, sk, out⟩ := s
      cases hs
      simp [deliver, Sink.accepts]
    | succ n =>
      rw [deliver, if_pos (by simp [hs, Sink.accepts]), ih (emit c s) n (by simp [hs]) (by simpa using hn)]
      simp [emit]

/-- Everything a delivery can do: it completes, or it stops with a nonempty rest at a channel that does not accept. -/
theorem deliver_cases (r : Record) (cs : List Chr) (s : State) :
    (s.sink.hasRoom cs.length = true ∧
      deliver r cs s =
        { s with st := r, inFlight := none, out := s.out ++ cs, sink := s.sink.after cs.length }) ∨
    (∃ n, s.sink = .room n ∧ n < cs.length ∧
      deliver r cs s =
        { s with inFlight := some ⟨cs.drop n, r⟩, out := s.out ++ cs.take n, sink := .room 0 }) := by
  cases hk : s.sink with
  | ready => exact .inl ⟨rfl, by rw [deliver_of_hasRoom r cs s (by simp [hk]), hk]⟩
  | room n =>
    by_cases h : cs.length ≤ n
    · exact .inl ⟨by simp [Sink.hasRoom, h], by rw [deliver_of_hasRoom r cs s (by simp [hk, Sink.hasRoom, h]), hk]⟩
    · exact .inr ⟨n, rfl, by omega, deliver_of_room_lt r cs s n hk (by omega)⟩

/-- The characters a delivery adds to the output are a prefix of the command's. -/
theorem deliver_out (r : Record) (cs : List Chr) (s : State) : ∃ n, (deliver r cs s).out = s.out ++ cs.take n := by
  rcases deliver_cases r cs s with ⟨-, h⟩ | ⟨n, -, -, h⟩
  · exact ⟨cs.length, by simp [h]⟩
  · exact ⟨n, by simp [h]⟩

/-! ## The prologue -/

theorem prologue_of_fault {r : Record} (k : CommandKind) (h : r.fault ≠ .none) : prologue k r = .ignore := if_pos h

theorem prologue_reserved {r : Record} (h : r.fault = .none) : prologue .reserved r = .raise .illegalCommand := by
  simp [prologue, h]

theorem prologue_init {r : Record} (h : r.fault = .none) : prologue .init r = .proceed := by
  simp [prologue, h, CommandKind.needsSession]

theorem prologue_idle {r : Record} {k : CommandKind} (h : r.fault = .none) (hk : k.needsSession = true)
    (hp : r.phase = .idle) : prologue k r = .raise .noSession := by
  cases k <;> simp_all [prologue, CommandKind.needsSession]

theorem prologue_finished {r : Record} {k : CommandKind} (h : r.fault = .none) (hk : k.needsSession = true)
    (hp : r.phase = .finished) : prologue k r = .raise .afterFinish := by
  cases k <;> simp_all [prologue, CommandKind.needsSession]

theorem prologue_open {r : Record} {k : CommandKind} (h : r.fault = .none) (hk : k.needsSession = true)
    (hp : r.phase = .fresh ∨ r.phase = .streaming) : prologue k r = .proceed := by
  rcases hp with hp | hp <;> cases k <;> simp_all [prologue, CommandKind.needsSession]

/-- What follows from a command proceeding past its prologue. -/
theorem of_prologue_proceed {k : CommandKind} {r : Record} (h : prologue k r = .proceed) :
    r.fault = .none ∧ k ≠ .reserved ∧
      (k.needsSession = true → r.phase = .fresh ∨ r.phase = .streaming) := by
  unfold prologue at h
  split at h
  · cases h
  split at h
  · cases h
  split at h
  · cases h
  split at h
  · cases h
  rename_i hf hk hi hn
  refine ⟨by simpa using hf, hk, fun hs => ?_⟩
  cases hp : r.phase <;> simp_all

/-- What follows from the prologue raising a cause: the checks of R98. -/
theorem of_prologue_raise {k : CommandKind} {r : Record} {c : Cause} (h : prologue k r = .raise c) :
    r.fault = .none ∧
      ((k = .reserved ∧ c = .illegalCommand) ∨
        (k.needsSession = true ∧ r.phase = .idle ∧ c = .noSession) ∨
        (k.needsSession = true ∧ r.phase = .finished ∧ c = .afterFinish)) := by
  unfold prologue at h
  split at h
  · cases h
  rename_i hf
  refine ⟨by simpa using hf, ?_⟩
  split at h
  · cases h
    exact .inl ⟨‹_›, rfl⟩
  split at h
  · cases h
    rename_i hp
    exact .inr (.inl ⟨hp.1, hp.2, rfl⟩)
  split at h
  · cases h
    rename_i hp
    exact .inr (.inr ⟨hp.1, hp.2, rfl⟩)
  · cases h

/-- Everything running a command can do: nothing (busy or faulted), one fault, or its own effect. -/
theorem runCommand_cases (k : CommandKind) (s : State) (body : Host.Outcome State Fault Refusal) :
    ((s.inFlight ≠ none ∨ s.st.fault ≠ .none) ∧ runCommand k s body = .next s) ∨
    (∃ c, s.inFlight = none ∧ prologue k s.st = .raise c ∧ runCommand k s body = .next (raiseFault c s)) ∨
    (s.inFlight = none ∧ prologue k s.st = .proceed ∧ runCommand k s body = body) := by
  unfold runCommand
  split
  · rename_i hb
    exact .inl ⟨.inl (by intro hi; simp [State.busy, hi] at hb), rfl⟩
  rename_i hb
  have hi : s.inFlight = none := by simpa [State.busy] using hb
  cases hp : prologue k s.st with
  | ignore =>
    refine .inl ⟨.inr fun hf => ?_, rfl⟩
    revert hp
    unfold prologue
    rw [if_neg (by simpa using hf)]
    repeat' split
    all_goals simp
  | raise c => exact .inr (.inl ⟨c, hi, rfl, rfl⟩)
  | proceed => exact .inr (.inr ⟨hi, rfl, rfl⟩)

theorem runCommand_proceed {k : CommandKind} {s : State} (body : Host.Outcome State Fault Refusal)
    (hi : s.inFlight = none) (hp : prologue k s.st = .proceed) : runCommand k s body = body := by
  simp [runCommand, State.busy, hi, hp]

theorem runCommand_raise {k : CommandKind} {s : State} {c : Cause} (body : Host.Outcome State Fault Refusal)
    (hi : s.inFlight = none) (hp : prologue k s.st = .raise c) : runCommand k s body = .next (raiseFault c s) := by
  simp [runCommand, State.busy, hi, hp]

theorem runCommand_of_fault (k : CommandKind) {s : State} (body : Host.Outcome State Fault Refusal)
    (hf : s.st.fault ≠ .none) : runCommand k s body = .next s := by
  unfold runCommand
  rw [prologue_of_fault k hf]
  split <;> rfl

/-- With no command in progress and no fault recorded, taking a fault writes the cause and nothing else. -/
theorem raiseFault_eq {s : State} (c : Cause) (hi : s.inFlight = none) (hf : s.st.fault = .none) :
    raiseFault c s = { s with st := { s.st with fault := c } } := by
  obtain ⟨st, fl, inp, sk, out⟩ := s
  cases hi
  simp only [raiseFault, recordCause_of_none c st hf]

/-! ## Reading the record -/

@[simp] theorem readField_some {α : Type} (f : Field) (a : α) (k : α → Host.Outcome State Fault Refusal) :
    readField f (some a) k = k a := rfl

@[simp] theorem readField_none {α : Type} (f : Field) (k : α → Host.Outcome State Fault Refusal) :
    readField f none k = .fault (.noValue f) := rfl

theorem readField_next {α : Type} {f : Field} {v : Option α} {k : α → Host.Outcome State Fault Refusal} {t : State}
    (h : readField f v k = .next t) : ∃ a, v = some a ∧ k a = .next t := by
  cases v with
  | none => cases h
  | some a => exact ⟨a, rfl, h⟩

theorem readAccumulator_A {r : Record} {s1 s2 : BitVec 8} (k : Accumulator → Host.Outcome State Fault Refusal)
    (hv : r.variant = some .A) (h1 : r.sum1 = some s1) (h2 : r.sum2 = some s2) :
    readAccumulator r k = k (.fletcher s1 s2) := by
  simp [readAccumulator, hv, h1, h2]

theorem readAccumulator_B {r : Record} {c : BitVec 16} (k : Accumulator → Host.Outcome State Fault Refusal)
    (hv : r.variant = some .B) (hc : r.chk = some c) : readAccumulator r k = k (.crc c) := by
  simp [readAccumulator, hv, hc]

/-- A read that goes on read the accumulator of the record's variant. -/
theorem readAccumulator_next {r : Record} {k : Accumulator → Host.Outcome State Fault Refusal} {t : State}
    (h : readAccumulator r k = .next t) :
    (∃ s1 s2, r.variant = some .A ∧ r.sum1 = some s1 ∧ r.sum2 = some s2 ∧ k (.fletcher s1 s2) = .next t) ∨
    (∃ c, r.variant = some .B ∧ r.chk = some c ∧ k (.crc c) = .next t) := by
  obtain ⟨v, hv, h⟩ := readField_next h
  cases v with
  | A =>
    obtain ⟨s1, h1, h⟩ := readField_next h
    obtain ⟨s2, h2, h⟩ := readField_next h
    exact .inl ⟨s1, s2, hv, h1, h2, h⟩
  | B =>
    obtain ⟨c, hc, h⟩ := readField_next h
    exact .inr ⟨c, hv, hc, h⟩

/-! ## The host's actions -/

theorem changeSink_none {s : State} (k : Sink) (h : s.inFlight = none) : changeSink k s = { s with sink := k } := by
  simp [changeSink, h]

theorem changeSink_some {s : State} {f : InFlight} (k : Sink) (h : s.inFlight = some f) :
    changeSink k s = deliver f.target f.pending { s with sink := k } := by
  simp [changeSink, h]

theorem abortSink_none {s : State} (h : s.inFlight = none) : abortSink s = s := by simp [abortSink, h]

theorem abortSink_some {s : State} {f : InFlight} (h : s.inFlight = some f) :
    abortSink s = raiseFault .sinkAbort s := by
  simp [abortSink, h]

/-- The action found is no command. -/
theorem firstControl_ne_command {es rest : List HostEvent} {e : HostEvent} (h : firstControl es = some (e, rest)) :
    ∀ c, e ≠ .command c := by
  induction es generalizing e rest with
  | nil => cases h
  | cons a es ih =>
    cases a with
    | command c =>
      simp only [firstControl] at h
      split at h
      · cases h
      · rename_i hx
        cases h
        exact ih hx
    | sink k => cases h; simp
    | abort => cases h; simp
    | reset => cases h; simp

/-- Presented commands are passed over, and stay in order. -/
theorem firstControl_commands (cs : List CmdWord) (e : HostEvent) (rest : List HostEvent)
    (he : ∀ c, e ≠ .command c) :
    firstControl (cs.map HostEvent.command ++ e :: rest) = some (e, cs.map HostEvent.command ++ rest) := by
  induction cs with
  | nil => cases e <;> simp_all [firstControl]
  | cons c cs ih => simp [firstControl, ih]

theorem nextEvent_idle {s : State} {e : HostEvent} {rest : List HostEvent} (hi : s.inFlight = none)
    (h : s.input = e :: rest) : nextEvent s = some (e, { s with input := rest }) := by
  simp [nextEvent, State.busy, hi, h, firstEvent]

theorem nextEvent_busy {s : State} {f : InFlight} {e : HostEvent} {cs : List CmdWord} {rest : List HostEvent}
    (hi : s.inFlight = some f) (he : ∀ c, e ≠ .command c) (h : s.input = cs.map HostEvent.command ++ e :: rest) :
    nextEvent s = some (e, { s with input := cs.map HostEvent.command ++ rest }) := by
  simp [nextEvent, State.busy, hi, h, firstControl_commands cs e rest he]

/-- The action found stands behind presented commands only, and it alone is gone. -/
theorem firstControl_some {es rest : List HostEvent} {e : HostEvent} (h : firstControl es = some (e, rest)) :
    ∃ (cs : List CmdWord) (r : List HostEvent),
      es = cs.map HostEvent.command ++ e :: r ∧ rest = cs.map HostEvent.command ++ r := by
  induction es generalizing e rest with
  | nil => cases h
  | cons a es ih =>
    cases a with
    | command c =>
      simp only [firstControl] at h
      split at h
      · cases h
      · rename_i hx
        cases h
        obtain ⟨cs, r, h1, h2⟩ := ih hx
        exact ⟨c :: cs, r, by simp [h1], by simp [h2]⟩
    | sink k => cases h; exact ⟨[], _, rfl, rfl⟩
    | abort => cases h; exact ⟨[], _, rfl, rfl⟩
    | reset => cases h; exact ⟨[], _, rfl, rfl⟩

/-- Everything the next action can be: the first of all or, of a busy core, the first behind the commands that wait; it
is taken off the input and nothing else changes. -/
theorem nextEvent_cases {s t : State} {e : HostEvent} (h : nextEvent s = some (e, t)) :
    ∃ (cs : List CmdWord) (rest : List HostEvent), s.input = cs.map HostEvent.command ++ e :: rest ∧
      t = { s with input := cs.map HostEvent.command ++ rest } ∧ (s.busy = false → cs = []) := by
  simp only [nextEvent] at h
  split at h
  · cases h
  rename_i e' rest hx
  cases h
  cases hb : s.busy with
  | true =>
    rw [hb] at hx
    obtain ⟨cs, r, h1, rfl⟩ := firstControl_some hx
    exact ⟨cs, r, h1, rfl, fun h => by cases h⟩
  | false =>
    rw [hb] at hx
    cases hi : s.input with
    | nil => rw [hi] at hx; cases hx
    | cons a es => rw [hi] at hx; cases hx; exact ⟨[], _, rfl, rfl, fun _ => rfl⟩

/-- What the next action leaves as it was. -/
theorem nextEvent_some {s t : State} {e : HostEvent} (h : nextEvent s = some (e, t)) :
    t = { s with input := t.input } ∧ ((∃ c, e = .command c) → s.inFlight = none) := by
  simp only [nextEvent] at h
  split at h
  · cases h
  · rename_i e' rest hx
    cases h
    refine ⟨rfl, fun ⟨c, hc⟩ => ?_⟩
    by_contra hn
    have hb : s.busy = true := by
      cases hi : s.inFlight with
      | none => exact absurd hi hn
      | some f => exact busy_of_inFlight_some hi
    rw [if_pos hb] at hx
    exact firstControl_ne_command hx c hc

end Sys2Proof.Machine
end

