-- ==== Sys2Proof/Laws/PerInstr.lean ====
section
/-! SUPPORT. The family TableRow of LAWS.json: an instruction's own word matches its row of spec/opcode_table.json. -/

namespace Sys2Proof.Laws.TableRow

/-- The word encoded for the instruction matches its row's pattern under its mask (spec/30_encoding.md R43). -/
def Statement (i : Instr) : Prop := rowSelects (rowOf i) (encode i) = true

theorem initA (operand : Word) : Statement (.initA operand) :=
  rowSelects_pattern_or rowInitA operand (by decide) (by decide)

theorem initB (operand : Word) : Statement (.initB operand) :=
  rowSelects_pattern_or rowInitB operand (by decide) (by decide)

theorem word (w : Word) : Statement (.word w) :=
  rowSelects_pattern_or rowWord w (by decide) (by decide)

theorem finish : Statement .finish := show rowSelects rowFinish (encode .finish) = true by decide

end Sys2Proof.Laws.TableRow
end

