-- ==== Sys2Proof/Laws/Step.lean ====
section
/-! SUPPORT. What one command and one step can do, said once. -/

namespace Sys2Proof.Machine

/-- The record holds the accumulator of its variant. -/
def HoldsAccumulator (r : Record) : Accumulator → Prop
  | .fletcher s1 s2 => r.variant = some .A ∧ r.sum1 = some s1 ∧ r.sum2 = some s2
  | .crc c => r.variant = some .B ∧ r.chk = some c

theorem readAccumulator_of_holds {r : Record} {a : Accumulator} (k : Accumulator → Host.Outcome State Fault Refusal)
    (h : HoldsAccumulator r a) : readAccumulator r k = k a := by
  cases a with
  | fletcher s1 s2 => exact readAccumulator_A k h.1 h.2.1 h.2.2
  | crc c => exact readAccumulator_B k h.1 h.2

theorem holds_of_readAccumulator {r : Record} {k : Accumulator → Host.Outcome State Fault Refusal} {t : State}
    (h : readAccumulator r k = .next t) : ∃ a, HoldsAccumulator r a ∧ k a = .next t := by
  rcases readAccumulator_next h with ⟨s1, s2, hv, h1, h2, hk⟩ | ⟨c, hv, hc, hk⟩
  · exact ⟨.fletcher s1 s2, ⟨hv, h1, h2⟩, hk⟩
  · exact ⟨.crc c, ⟨hv, hc⟩, hk⟩

/-- A record with a session's values holds an accumulator. -/
theorem holds_of_sessionHolds {r : Record} (h : r.sessionHolds = true) :
    ∃ sp a, r.spacer = some sp ∧ HoldsAccumulator r a := by
  obtain ⟨spacer, sum1, sum2, chk, variant, phase, fault⟩ := r
  cases spacer with
  | none => simp [Record.sessionHolds] at h
  | some sp =>
    cases variant with
    | none => simp [Record.sessionHolds] at h
    | some v =>
      cases v with
      | A =>
        cases sum1 <;> cases sum2 <;> simp [Record.sessionHolds, sumInRange] at h
        exact ⟨sp, .fletcher _ _, rfl, rfl, rfl, rfl⟩
      | B =>
        cases chk <;> simp [Record.sessionHolds] at h
        exact ⟨sp, .crc _, rfl, rfl, rfl⟩

/-- The record a command writes and the characters it emits, past its prologue (R90 to R93). -/
def Effect (r target : Record) (cs : List Chr) : Instr → Prop
  | .initA h => target = startA (headerOf h) r ∧ cs = []
  | .initB h => target = startB (headerOf h) r ∧ cs = []
  | .word w =>
    (r.phase = .fresh ∨ r.phase = .streaming) ∧ ∃ sp a, r.spacer = some sp ∧ HoldsAccumulator r a ∧
      cs = group w sp ∧
      target = wordRecord (engineWord Config.crc8Table a w cs).1 (engineWord Config.crc8Table a w cs).2 r
  | .finish =>
    (r.phase = .fresh ∨ r.phase = .streaming) ∧ ∃ a, HoldsAccumulator r a ∧
      cs = pack565 (checkValue a) ∧ target = { r with phase := .finished }

/-- The cause an instruction raises from a record with no fault (R98, R102, R103). -/
def Raises (r : Record) (c : Cause) : Instr → Prop
  | .initA _ => False
  | .initB _ => False
  | .word _ => (r.phase = .idle ∧ c = .noSession) ∨ (r.phase = .finished ∧ c = .afterFinish)
  | .finish => (r.phase = .idle ∧ c = .noSession) ∨ (r.phase = .finished ∧ c = .afterFinish)

/-- Everything a command that answers a next state can do: nothing (busy or faulted), one fault, or its own effect. -/
theorem exec_cases {i : Instr} {s t : State} (h : exec i s = .next t) :
    ((s.inFlight ≠ none ∨ s.st.fault ≠ .none) ∧ t = s) ∨
    (∃ c, s.inFlight = none ∧ s.st.fault = .none ∧ Raises s.st c i ∧ t = raiseFault c s) ∨
    (s.inFlight = none ∧ s.st.fault = .none ∧ ∃ target cs, Effect s.st target cs i ∧ t = deliver target cs s) := by
  have key : ∀ k body, runCommand k s body = .next t →
      (∀ c, prologue k s.st = .raise c → Raises s.st c i) →
      (prologue k s.st = .proceed → body = .next t →
        ∃ target cs, Effect s.st target cs i ∧ t = deliver target cs s) →
      ((s.inFlight ≠ none ∨ s.st.fault ≠ .none) ∧ t = s) ∨
      (∃ c, s.inFlight = none ∧ s.st.fault = .none ∧ Raises s.st c i ∧ t = raiseFault c s) ∨
      (s.inFlight = none ∧ s.st.fault = .none ∧ ∃ target cs, Effect s.st target cs i ∧ t = deliver target cs s) := by
    intro k body hr hc hb
    rcases runCommand_cases k s body with ⟨hn, h1⟩ | ⟨c, hi, hp, h1⟩ | ⟨hi, hp, h1⟩
    · rw [h1] at hr
      exact .inl ⟨hn, by injection hr with e; exact e.symm⟩
    · rw [h1] at hr
      exact .inr (.inl ⟨c, hi, (of_prologue_raise hp).1, hc c hp, by injection hr with e; exact e.symm⟩)
    · rw [h1] at hr
      exact .inr (.inr ⟨hi, (of_prologue_proceed hp).1, hb hp hr⟩)
  have init : ∀ c, prologue .init s.st ≠ .raise c := by
    intro c hp
    obtain ⟨-, ⟨h, -⟩ | ⟨h, -, -⟩ | ⟨h, -, -⟩⟩ := of_prologue_raise hp <;> cases h
  have session : ∀ k c, k ≠ .reserved → prologue k s.st = .raise c →
      (s.st.phase = .idle ∧ c = .noSession) ∨ (s.st.phase = .finished ∧ c = .afterFinish) := by
    intro k c hk hp
    obtain ⟨-, ⟨h, -⟩ | ⟨-, h⟩ | ⟨-, h⟩⟩ := of_prologue_raise hp
    · exact absurd h hk
    · exact .inl h
    · exact .inr h
  cases i with
  | initA o =>
    refine key .init _ h (fun c hc => absurd hc (init c)) fun _ hb => ⟨_, _, ⟨rfl, rfl⟩, ?_⟩
    injection hb with e
    exact e.symm
  | initB o =>
    refine key .init _ h (fun c hc => absurd hc (init c)) fun _ hb => ⟨_, _, ⟨rfl, rfl⟩, ?_⟩
    injection hb with e
    exact e.symm
  | word w =>
    refine key .word _ h (fun c => session .word c (by simp)) fun hp hb => ?_
    obtain ⟨sp, hsp, hb⟩ := readField_next hb
    obtain ⟨a, ha, hb⟩ := holds_of_readAccumulator hb
    refine ⟨_, _, ⟨(of_prologue_proceed hp).2.2 rfl, sp, a, hsp, ha, rfl, rfl⟩, ?_⟩
    injection hb with e
    exact e.symm
  | finish =>
    refine key .finish _ h (fun c => session .finish c (by simp)) fun hp hb => ?_
    obtain ⟨a, ha, hb⟩ := holds_of_readAccumulator hb
    refine ⟨_, _, ⟨(of_prologue_proceed hp).2.2 rfl, a, ha, rfl, rfl⟩, ?_⟩
    injection hb with e
    exact e.symm

/-- A command that raises a cause takes that fault. -/
theorem exec_of_raises {i : Instr} {s : State} {c : Cause} (hi : s.inFlight = none) (hf : s.st.fault = .none)
    (hr : Raises s.st c i) : exec i s = .next (raiseFault c s) := by
  cases i with
  | initA o => exact hr.elim
  | initB o => exact hr.elim
  | word w =>
    rcases hr with ⟨hp, rfl⟩ | ⟨hp, rfl⟩
    · exact runCommand_raise _ hi (prologue_idle hf rfl hp)
    · exact runCommand_raise _ hi (prologue_finished hf rfl hp)
  | finish =>
    rcases hr with ⟨hp, rfl⟩ | ⟨hp, rfl⟩
    · exact runCommand_raise _ hi (prologue_idle hf rfl hp)
    · exact runCommand_raise _ hi (prologue_finished hf rfl hp)

/-- A command past its prologue does its effect. -/
theorem exec_of_effect {i : Instr} {s : State} {target : Record} {cs : List Chr} (hi : s.inFlight = none)
    (hf : s.st.fault = .none) (he : Effect s.st target cs i) : exec i s = .next (deliver target cs s) := by
  cases i with
  | initA o =>
    obtain ⟨rfl, rfl⟩ := he
    exact runCommand_proceed _ hi (prologue_init hf)
  | initB o =>
    obtain ⟨rfl, rfl⟩ := he
    exact runCommand_proceed _ hi (prologue_init hf)
  | word w =>
    obtain ⟨hp, sp, a, hsp, ha, rfl, rfl⟩ := he
    refine (runCommand_proceed _ hi (prologue_open hf rfl hp)).trans ?_
    rw [encodeWordWith, hsp, readField_some, readAccumulator_of_holds _ ha]
    rfl
  | finish =>
    obtain ⟨hp, a, ha, rfl, rfl⟩ := he
    refine (runCommand_proceed _ hi (prologue_open hf rfl hp)).trans ?_
    rw [readAccumulator_of_holds _ ha]

theorem exec_of_fault (i : Instr) {s : State} (hf : s.st.fault ≠ .none) : exec i s = .next s := by
  cases i <;> exact runCommand_of_fault _ _ hf

/-- Everything a word with OP = 11 can do. -/
theorem takeIllegalCommand_cases (s : State) :
    ((s.inFlight ≠ none ∨ s.st.fault ≠ .none) ∧ takeIllegalCommand s = .next s) ∨
    (s.inFlight = none ∧ s.st.fault = .none ∧ takeIllegalCommand s = .next (raiseFault .illegalCommand s)) := by
  by_cases hf : s.st.fault = .none
  · cases hi : s.inFlight with
    | some f => exact .inl ⟨.inl (by simp), by simp [takeIllegalCommand, runCommand, State.busy, hi]⟩
    | none => exact .inr ⟨rfl, hf, runCommand_raise _ hi (prologue_reserved hf)⟩
  · exact .inl ⟨.inr hf, runCommand_of_fault _ _ hf⟩

/-! ## One step, by the action it takes -/

theorem step_of_none {s : State} (h : nextEvent s = none) : step s = .next s := by simp [step, h]

theorem step_of_command {s t : State} {c : CmdWord} {i : Instr} (h : nextEvent s = some (.command c, t))
    (hd : decode c = .command i) : step s = exec i t := by simp [step, h, hd]

theorem step_of_reserved {s t : State} {c : CmdWord} {r : Reject} (h : nextEvent s = some (.command c, t))
    (hd : decode c = .rejected r) : step s = takeIllegalCommand t := by simp [step, h, hd]

theorem step_of_sink {s t : State} {k : Sink} (h : nextEvent s = some (.sink k, t)) :
    step s = .next (changeSink k t) := by simp [step, h]

theorem step_of_abort {s t : State} (h : nextEvent s = some (.abort, t)) : step s = .next (abortSink t) := by
  simp [step, h]

theorem step_of_reset {s t : State} (h : nextEvent s = some (.reset, t)) : step s = .next (applyReset t) := by
  simp [step, h]

/-- Everything a step can do. -/
theorem step_cases {s t : State} (h : step s = .next t) :
    (nextEvent s = none ∧ t = s) ∨
    (∃ c i u, nextEvent s = some (.command c, u) ∧ decode c = .command i ∧ exec i u = .next t) ∨
    (∃ c r u, nextEvent s = some (.command c, u) ∧ decode c = .rejected r ∧ takeIllegalCommand u = .next t) ∨
    (∃ k u, nextEvent s = some (.sink k, u) ∧ t = changeSink k u) ∨
    (∃ u, nextEvent s = some (.abort, u) ∧ t = abortSink u) ∨
    (∃ u, nextEvent s = some (.reset, u) ∧ t = applyReset u) := by
  cases hn : nextEvent s with
  | none =>
    rw [step_of_none hn] at h
    exact .inl ⟨rfl, by injection h with e; exact e.symm⟩
  | some p =>
    obtain ⟨e, u⟩ := p
    cases e with
    | command c =>
      cases hd : decode c with
      | command i => exact .inr (.inl ⟨c, i, u, rfl, hd, by rw [← h, step_of_command hn hd]⟩)
      | rejected r => exact .inr (.inr (.inl ⟨c, r, u, rfl, hd, by rw [← h, step_of_reserved hn hd]⟩))
    | sink k =>
      rw [step_of_sink hn] at h
      exact .inr (.inr (.inr (.inl ⟨k, u, rfl, by injection h with e; exact e.symm⟩)))
    | abort =>
      rw [step_of_abort hn] at h
      exact .inr (.inr (.inr (.inr (.inl ⟨u, rfl, by injection h with e; exact e.symm⟩))))
    | reset =>
      rw [step_of_reset hn] at h
      exact .inr (.inr (.inr (.inr (.inr ⟨u, rfl, by injection h with e; exact e.symm⟩))))

/-! ## Runs -/

/-- A run whose first step answers a next state goes on from it, for any machine. -/
theorem core_run_of_step (M : Host.Core) {s t : M.State} (k : Nat) (h : M.step s = .next t) :
    M.run (k + 1) s = M.run k t := by
  rw [Host.Core.run, h]

/-- A run that answers a next state took a first step that does, for any machine. -/
theorem core_step_of_run (M : Host.Core) {s t : M.State} {k : Nat} (h : M.run (k + 1) s = .next t) :
    ∃ u, M.step s = .next u := by
  rw [Host.Core.run] at h
  cases hs : M.step s with
  | next u => exact ⟨u, rfl⟩
  | fault r => rw [hs] at h; cases h
  | refused r => rw [hs] at h; cases h

theorem run_of_step {s t : State} (k : Nat) (h : step s = .next t) :
    Host.Core.run Sys2Proof.core (k + 1) s = Host.Core.run Sys2Proof.core k t :=
  core_run_of_step Sys2Proof.core k h

theorem step_of_run {s t : State} {k : Nat} (h : Host.Core.run Sys2Proof.core (k + 1) s = .next t) :
    ∃ u, step s = .next u := core_step_of_run Sys2Proof.core h

@[simp] theorem run_zero (s : State) : Host.Core.run Sys2Proof.core 0 s = .next s := rfl

/-- A run of two parts, the first of which answers a next state. -/
theorem run_add {s t : State} (j k : Nat) (h : Host.Core.run Sys2Proof.core j s = .next t) :
    Host.Core.run Sys2Proof.core (j + k) s = Host.Core.run Sys2Proof.core k t := by
  induction j generalizing s with
  | zero =>
    rw [run_zero] at h
    injection h with e
    rw [Nat.zero_add, e]
  | succ j ih =>
    obtain ⟨u, hs⟩ := step_of_run h
    rw [Nat.add_right_comm, run_of_step _ hs]
    rw [run_of_step _ hs] at h
    exact ih h

end Sys2Proof.Machine
end

