-- ==== Sys2Proof/Tests/Slice0.lean ====
section
/-! SUPPORT. The model's own tests, with expected values from spec/95_test_vectors.md and the worked examples of the
rules, and one witness for the hypotheses of each statement. -/

namespace Sys2Proof.Tests

open Sys2Proof Sys2Proof.Machine

/-! ## Helpers -/

/-- The state an outcome answers. -/
def stateOf : Host.Outcome State Fault Refusal → Option State
  | .next s => some s
  | .fault _ => none
  | .refused _ => none

/-- The machine after reset with this record. -/
def withRecord (r : Record) : State := { State.reset with st := r }

/-- A variant A session. -/
def recA (p : Phase) : Record :=
  { Record.reset with spacer := some 0#6, sum1 := some 0#8, sum2 := some 0#8, variant := some .A, phase := p }

/-- A variant B session, as `INIT.B 0` leaves it but for the phase. -/
def recB (p : Phase) : Record :=
  { Record.reset with spacer := some 0#6, chk := some 0xEDA6#16, variant := some .B, phase := p }

/-- The machine with this cause recorded. -/
def faulted (c : Cause) (r : Record) : State := withRecord { r with fault := c }

/-- The machine with these words presented. -/
def presenting (s : State) (ws : List CmdWord) : State := { s with input := ws.map HostEvent.command }

/-- A FINISH of a variant B session with its first character accepted. -/
def busyFinish : State :=
  { withRecord (recB .fresh) with
    sink := .room 0, out := [0x26#8], inFlight := some ⟨[0x6D#8, 0x3D#8], recB .finished⟩ }

/-! ## Well-formedness, decoding, assembly -/

theorem test_wellFormed_refuses_wide_header_A : (SourceLine.initA 0x100000000).wellFormed = false := by decide
theorem test_wellFormed_refuses_wide_header_B : (SourceLine.initB 0x100000000).wellFormed = false := by decide
theorem test_wellFormed_refuses_wide_word : (SourceLine.word 0x100000000).wellFormed = false := by decide
theorem test_wellFormed_refuses_wide_stream_header : (SourceLine.streamA 0x100000000 []).wellFormed = false := by decide
theorem test_wellFormed_refuses_wide_stream_word : (SourceLine.streamB 0 [1, 0x100000000]).wellFormed = false := by decide
theorem test_wellFormed_accepts_largest : (SourceLine.streamA 0xFFFFFFFF [0xFFFFFFFF]).wellFormed = true := by decide

theorem test_canonical_refuses_word_var : isCanonical 0x300000000#35 = false := by decide
theorem test_canonical_refuses_finish_var : isCanonical 0x500000000#35 = false := by decide
theorem test_canonical_refuses_finish_operand : isCanonical 0x400000001#35 = false := by decide
theorem test_canonical_refuses_reserved : isCanonical 0x600000000#35 = false := by decide
theorem test_canonical_accepts_wide_header : isCanonical 0x1FFFFFFC0#35 = true := by decide

/- Command words of 95_test_vectors.md section 2.5, by hand from R41 and R43. -/
theorem test_decode_initA : decodeTableWord 35 0x000000055 = some (.initA 0x55#32) := by decide
theorem test_decode_initB : decodeTableWord 40 0x1FFFFFFC0 = some (.initB 0xFFFFFFC0#32) := by decide
theorem test_decode_word : decodeTableWord 35 0x212345678 = some (.word 0x12345678#32) := by decide
theorem test_decode_word_var : decodeTableWord 35 0x3DEADBEEF = some (.word 0xDEADBEEF#32) := by decide
theorem test_decode_finish : decodeTableWord 35 0x4FFFFFFFF = some .finish := by decide
theorem test_decode_reserved : decodeNat 0x600000000 = .rejected .reservedOp := by decide
theorem test_decode_too_wide : decodeNat 0x800000000 = .rejected .notCommandWord := by decide
theorem test_encode_word : encode (.word 0x12345678#32) = 0x212345678#35 := by decide

/- R48: "`WORD 0x12345678` is `0x212345678`"; the lines of program P2 and R49. -/
theorem test_parse_word : parseLine "WORD 0x12345678 ; c".toList = some (.word 0x12345678) := by decide
theorem test_parse_stream : parseLine "STREAM.B 21, 0xA, 2".toList = some (.streamB 21 [10, 2]) := by decide
theorem test_parse_refuses_missing_operand : parseLine "INIT.A".toList = none := by decide
theorem test_word_text : wordText 0x212345678#35 = "0x212345678".toList := by decide
theorem test_assemble_stream :
    assembleLine (.streamB 0 [1, 2]) = some [0x100000000#35, 0x200000001#35, 0x200000002#35, 0x400000000#35] := by decide

/-! ## The functions (95_test_vectors.md sections 2.1 to 2.4) -/

theorem test_group :
    group 0x12345678#32 0x15#6 = [0x38#8, 0x73#8, 0x2A#8, 0x55#8, 0x34#8, 0x51#8, 0x22#8, 0x4C#8] ∧
    group 0x80000000#32 0x20#6 = [0x20#8, 0x40#8, 0x20#8, 0x60#8, 0x20#8, 0x40#8, 0x30#8, 0x4F#8] ∧
    group 0xDEADBEEF#32 0x00#6 = [0x2F#8, 0x77#8, 0x37#8, 0x40#8, 0x2D#8, 0x75#8, 0x3B#8, 0x73#8] := by decide

theorem test_crcBit :
    crcBit 0x0001#16 = 0xA6BC#16 ∧ crcBit 0xFFFF#16 = 0xD943#16 ∧ crcBit 0xFFFFFFFF#32 = 0x7FFF5943#32 := by decide

theorem test_crcByte : crcByte 0x0000#16 0x01#8 = 0x365E#16 ∧ crcByte 0xFFFF#16 0x00#8 = 0x12CA#16 := by decide

theorem test_initB : initB 0x15#6 = 0xB0EB#16 ∧ initB 0x3F#6 = 0x0A71#16 := by decide

theorem test_crcWord :
    crcWord 0x1234#16 0xDEADBEEF#32 = 0x5A25#16 ∧ crcWord 0x0000#16 0x80000000#32 = 0xA6BC#16 ∧
    crcWord 0x52A9#16 0x12345678#32 = 0xCC81#16 := by decide +kernel

theorem test_spacerB : spacerB 0xF39C#16 = 0x00#6 ∧ spacerB 0x90B2#16 = 0x06#6 ∧ spacerB 0xA6BC#16 = 0x14#6 := by decide

/- Section 2.3 gives residues; under the table `T(x) = x` a list of residues is its own group. The last two rows are
those that tell the rule from the rejected 8-bit-wrap reading (90_conflicts.md C4). -/
theorem test_fletcherWord :
    fletcherWord id 0#8 0#8 [1#8, 2#8, 3#8, 4#8, 5#8, 6#8, 7#8, 8#8] = (36#8, 120#8) ∧
    fletcherWord id 0#8 0#8 [255#8, 0#8, 0#8, 0#8, 0#8, 0#8, 0#8, 0#8] = (0#8, 0#8) ∧
    fletcherWord id 254#8 254#8 (List.replicate 8 255#8) = (254#8, 246#8) := by decide

theorem test_spacerA : spacerA 0xC5#8 = 0x05#6 ∧ spacerA 0xFE#8 = 0x3E#6 := by decide

theorem test_pack565 :
    pack565 0x1234#16 = [0x34#8, 0x51#8, 0x22#8] ∧ pack565 0x8001#16 = [0x21#8, 0x40#8, 0x30#8] ∧
    pack565 (checkValue (.fletcher 0xC0#8 0xC5#8)) = [0x20#8, 0x6E#8, 0x38#8] := by decide

/-! ## The commands (sections 2.5 and 3) -/

theorem test_initA : (stateOf (exec (.initA 0x55#32) State.reset)).map (·.st) =
    some { recA .fresh with spacer := some 0x15#6 } := by decide

theorem test_initA_abandons : (stateOf (exec (.initA 0#32) (withRecord (recB .streaming)))).map (·.st) =
    some (recA .fresh) := by decide

theorem test_initB_masks : (stateOf (exec (.initB 0xFFFFFFC0#32) State.reset)).map (·.st) = some (recB .fresh) := by decide

theorem test_word_B_out : (stateOf (exec (.word 0#32) (withRecord (recB .fresh)))).map (·.out) =
    some [0x20#8, 0x40#8, 0x20#8, 0x40#8, 0x20#8, 0x40#8, 0x20#8, 0x7F#8] := by decide

theorem test_word_B_record : (stateOf (exec (.word 0#32) (withRecord (recB .fresh)))).map (·.st) =
    some { recB .streaming with chk := some 0x90B2#16, spacer := some 0x06#6 } := by decide +kernel

/- Program P3 under the illustrative table `T(x) = x`. -/
theorem test_word_A_illustrative : (stateOf (execWordWith id 0#32 (withRecord (recA .fresh)))).map (·.st) =
    some { recA .streaming with sum1 := some 0xC0#8, sum2 := some 0xC5#8, spacer := some 0x05#6 } := by decide

theorem test_finish_B : (stateOf (exec .finish (withRecord (recB .fresh)))).map (·.out) =
    some [0x26#8, 0x6D#8, 0x3D#8] := by decide

theorem test_finish_A : (stateOf (exec .finish (withRecord (recA .fresh)))).map (fun s => (s.out, s.st.phase)) =
    some ([0x20#8, 0x40#8, 0x20#8], .finished) := by decide

/-! ## Faults, status, delivery -/

theorem test_noSession : (stateOf (step (presenting State.reset [0x200000005#35]))).map (·.status) = some 0x08#7 := by decide

theorem test_afterFinish :
    (stateOf (step (presenting (withRecord (recB .finished)) [0x400000000#35]))).map (·.status) = some 0x17#7 := by decide

theorem test_illegal :
    (stateOf (step (presenting (withRecord (recB .fresh)) [0x600000000#35]))).map (·.status) = some 0x1D#7 := by decide

theorem test_illegal_before_noSession :
    (stateOf (step (presenting State.reset [0x600000000#35]))).map (·.st.fault) = some .illegalCommand := by decide

theorem test_faulted_ignores_init :
    (stateOf (step (presenting (faulted .noSession Record.reset) [0x100000000#35]))).map (·.st) =
      some { Record.reset with fault := .noSession } := by decide

theorem test_stall : (stateOf (exec .finish { withRecord (recB .fresh) with sink := .room 1 })).map
    (fun s => (s.out, s.st, s.busy)) = some ([0x26#8], recB .fresh, true) := by decide

theorem test_abort : (stateOf (step { busyFinish with input := [.command 0#35, .abort] })).map
    (fun s => (s.out, s.st, s.busy)) = some ([0x26#8], { recB .fresh with fault := .sinkAbort }, false) := by decide

theorem test_resume : (stateOf (step { busyFinish with input := [.command 0#35, .sink .ready] })).map
    (fun s => (s.out, s.st, s.input)) =
      some ([0x26#8, 0x6D#8, 0x3D#8], recB .finished, [HostEvent.command 0#35]) := by decide

/- R125, R37: one of the two pending characters is accepted. -/
theorem test_partial_resume : (stateOf (step { busyFinish with input := [.sink (.room 1)] })).map
    (fun s => (s.out, s.st, s.inFlight)) =
      some ([0x26#8, 0x6D#8], recB .fresh, some ⟨[0x3D#8], recB .finished⟩) := by decide

theorem test_reset_mid_command : (stateOf (step { busyFinish with input := [.reset] })).map
    (fun s => (s.out, s.st, s.busy)) = some ([0x26#8], Record.reset, false) := by decide

theorem test_fetch_word :
    (stateOf (step (State.reset.withFetchWord 35 0x100000000))).map (·.st) = some (recB .fresh) := by decide

/-! ## Witnesses: a concrete state and operands that meet all the hypotheses of each statement -/

theorem witness_ResetSetsEveryField :
    ({ State.reset with input := [.reset] } : State).input = .reset :: [] ∧
    ({ busyFinish with input := [.reset, .command 0#35] } : State).input = .reset :: [.command 0#35] := by decide

theorem witness_OpcodePatternsPartitionTheWords :
    0x0FFFFFFFF#35 &&& 0x700000000#35 = 0x000000000#35 ∧ 0x1FFFFFFFF#35 &&& 0x700000000#35 = 0x100000000#35 ∧
    0x3FFFFFFFF#35 &&& 0x600000000#35 = 0x200000000#35 ∧ 0x5FFFFFFFF#35 &&& 0x600000000#35 = 0x400000000#35 ∧
    0x7FFFFFFFF#35 &&& 0x600000000#35 = 0x600000000#35 := by decide

theorem witness_DecodeOfEncode : (Instr.word 0xFFFFFFFF#32).wellFormed = true := by decide

theorem witness_EncodeOfDecodeOnCanonicalWords :
    isCanonical 0x2FFFFFFFF#35 = true ∧ decode 0x2FFFFFFFF#35 = .command (.word 0xFFFFFFFF#32) := by decide

theorem witness_AssembledLinesDecodeToTheirCommands : (SourceLine.streamA 0x15 [0, 0xFFFFFFFF]).wellFormed = true := by
  decide

theorem witness_IgnoredBitsHaveNoEffect :
    State.reset.inFlight = none ∧
    (opField 0x200000005#35 = 0b01#2 ∧ opField 0x300000005#35 = 0b01#2 ∧
      operandField 0x200000005#35 = operandField 0x300000005#35) ∧
    (opField 0x400000000#35 = 0b10#2 ∧ opField 0x5FFFFFFFF#35 = 0b10#2) := by decide

theorem witness_HeaderIsTruncatedToSixBits :
    (0x55#32).toNat % 64 = (0xFFFFFFD5#32).toNat % 64 ∧ State.reset.inFlight = none ∧ State.reset.st.fault = .none := by
  decide

theorem witness_StepRunsTheDecodedCommand :
    (presenting State.reset [0x100000000#35]).inFlight = none ∧
    (presenting State.reset [0x100000000#35]).input = .command 0x100000000#35 :: [] ∧
    decode 0x100000000#35 = .command (.initB 0#32) := by decide

theorem witness_CoreWaitsWhenNothingIsPresented : State.reset.input = [] := by decide

theorem witness_InitAStartsAVariantASession :
    (withRecord (recB .streaming)).inFlight = none ∧ (withRecord (recB .streaming)).st.fault = .none ∧
    (faulted .sinkAbort (recA .fresh)).st.fault ≠ .none ∧ 0x000000055#35 &&& 0x700000000#35 = 0x000000000#35 := by decide

theorem witness_InitBStartsAVariantBSession :
    (withRecord (recA .finished)).inFlight = none ∧ (withRecord (recA .finished)).st.fault = .none ∧
    (faulted .noSession Record.reset).st.fault ≠ .none ∧ 0x100000055#35 &&& 0x700000000#35 = 0x100000000#35 := by decide

theorem witness_WordEncodesOneWord :
    0x300000000#35 &&& 0x600000000#35 = 0x200000000#35 ∧
    (withRecord (recA .fresh)).inFlight = none ∧ (withRecord (recA .fresh)).st.fault = .none ∧
    (withRecord (recA .fresh)).sink.hasRoom 8 = true ∧ (Sink.room 8).hasRoom 8 = true ∧
    (recA .fresh).spacer = some 0#6 ∧ (recA .fresh).variant = some .A ∧ (recA .fresh).sum1 = some 0#8 ∧
    (recA .fresh).sum2 = some 0#8 ∧
    (recB .streaming).phase = .streaming ∧ (recB .streaming).spacer = some 0#6 ∧ (recB .streaming).variant = some .B ∧
    (recB .streaming).chk = some 0xEDA6#16 ∧
    State.reset.st.phase = .idle ∧ (recA .finished).phase = .finished ∧
    (faulted .afterFinish (recA .finished)).st.fault ≠ .none := by decide

theorem witness_FinishEmitsTheTrailer :
    0x5FFFFFFFF#35 &&& 0x600000000#35 = 0x400000000#35 ∧
    (withRecord (recA .streaming)).inFlight = none ∧ (withRecord (recA .streaming)).st.fault = .none ∧
    (Sink.room 3).hasRoom 3 = true ∧ (recA .streaming).phase = .streaming ∧ (recA .streaming).variant = some .A ∧
    (recA .streaming).sum1 = some 0#8 ∧ (recA .streaming).sum2 = some 0#8 ∧
    (recB .fresh).phase = .fresh ∧ (recB .fresh).variant = some .B ∧ (recB .fresh).chk = some 0xEDA6#16 ∧
    State.reset.st.phase = .idle ∧ (recB .finished).phase = .finished ∧
    (faulted .illegalCommand (recB .fresh)).st.fault ≠ .none := by decide

theorem witness_CommandWithoutSessionRaisesNoSession :
    ((∃ w, Instr.word 5#32 = .word w) ∨ Instr.word 5#32 = .finish) ∧
    State.reset.inFlight = none ∧ State.reset.st.fault = .none ∧ State.reset.st.phase = .idle :=
  ⟨.inl ⟨_, rfl⟩, rfl, rfl, rfl⟩

theorem witness_CommandAfterFinishRaisesAfterFinish :
    (withRecord (recB .finished)).inFlight = none ∧ (withRecord (recB .finished)).st.fault = .none ∧
    (withRecord (recB .finished)).st.phase = .finished := by decide

theorem witness_ReservedOpRaisesIllegalCommand :
    (presenting State.reset [0x7FFFFFFFF#35]).inFlight = none ∧
    (presenting State.reset [0x7FFFFFFFF#35]).st.fault = .none ∧
    (presenting State.reset [0x7FFFFFFFF#35]).input = .command 0x7FFFFFFFF#35 :: [] ∧
    opField 0x7FFFFFFFF#35 = 0b11#2 := by decide

theorem witness_FaultedCoreIgnoresEveryCommand :
    (presenting (faulted .noSession Record.reset) [0x000000000#35]).inFlight = none ∧
    (presenting (faulted .noSession Record.reset) [0x000000000#35]).st.fault ≠ .none ∧
    (presenting (faulted .noSession Record.reset) [0x000000000#35]).input = .command 0x000000000#35 :: [] := by decide

theorem witness_OnlyResetClearsAFault :
    (presenting (faulted .afterFinish (recB .finished)) [0x100000000#35]).Inv = true ∧
    (presenting (faulted .afterFinish (recB .finished)) [0x100000000#35]).st.fault ≠ .none ∧
    ∃ t, step (presenting (faulted .afterFinish (recB .finished)) [0x100000000#35]) = .next t :=
  ⟨by decide, by decide, _, rfl⟩

theorem witness_FaultEntryIsPrecise :
    (presenting State.reset [0x400000000#35]).Inv = true ∧ (presenting State.reset [0x400000000#35]).st.fault = .none ∧
    (∃ t, step (presenting State.reset [0x400000000#35]) = .next t ∧ t.st.fault ≠ .none) ∧
    ({ busyFinish with input := [.command 0#35, .abort] } : State).Inv = true ∧
    (∃ t, step { busyFinish with input := [.command 0#35, .abort] } = .next t ∧ t.st.fault ≠ .none) :=
  ⟨by decide, by decide, ⟨_, rfl, by decide⟩, by decide, _, rfl, by decide⟩

theorem witness_EachCauseHasItsOwnTrigger :
    ({ busyFinish with input := [.abort] } : State).Inv = true ∧
    ({ busyFinish with input := [.abort] } : State).st.fault = .none ∧
    (∃ t, step { busyFinish with input := [.abort] } = .next t ∧ t.st.fault = .sinkAbort) ∧
    (∃ t, step (presenting State.reset [0x400000000#35]) = .next t ∧ t.st.fault = .noSession) ∧
    (∃ t, step (presenting (withRecord (recA .finished)) [0x400000000#35]) = .next t ∧ t.st.fault = .afterFinish) ∧
    (∃ t, step (presenting State.reset [0x600000000#35]) = .next t ∧ t.st.fault = .illegalCommand) :=
  ⟨by decide, by decide, ⟨_, rfl, by decide⟩, ⟨_, rfl, by decide⟩, ⟨_, rfl, by decide⟩, ⟨_, rfl, by decide⟩⟩

theorem witness_ChecksRunInOrder :
    (presenting (withRecord (recA .finished)) [0x600000000#35]).Inv = true ∧
    (presenting (withRecord (recA .finished)) [0x600000000#35]).inFlight = none ∧
    (presenting (withRecord (recA .finished)) [0x600000000#35]).sink = .ready ∧
    (presenting (withRecord (recA .finished)) [0x600000000#35]).input = .command 0x600000000#35 :: [] := by decide

theorem witness_SinkAbortEndsTheCommand :
    busyFinish.inFlight = some ⟨[0x6D#8, 0x3D#8], recB .finished⟩ ∧ busyFinish.st.fault = .none ∧
    ({ busyFinish with input := [.abort, .command 0#35] } : State).input = .abort :: [.command 0#35] := by decide

theorem witness_StalledCommandLeavesTheRecordUnwritten :
    ({ withRecord (recB .fresh) with sink := .room 7 } : State).Inv = true ∧
    ({ withRecord (recB .fresh) with sink := .room 7 } : State).inFlight = none ∧ (recB .fresh).fault = .none ∧
    (recB .fresh).phase = .fresh ∧ (recB .fresh).spacer = some 0#6 ∧ (7 : Nat) < 8 ∧
    ({ withRecord (recB .fresh) with sink := .room 2 } : State).Inv = true ∧ (2 : Nat) < 3 ∧
    (recB .fresh).variant = some .B ∧ (recB .fresh).chk = some 0xEDA6#16 := by decide

theorem witness_ResumedCommandEqualsTheAtomicOne :
    (withRecord (recB .fresh)).inFlight = none ∧
    ∃ t, exec .finish { withRecord (recB .fresh) with sink := .room 2 } = .next t ∧ t.busy = true :=
  ⟨rfl, _, rfl, by decide⟩

theorem witness_BusyCoreAcceptsNoCommand :
    ({ busyFinish with input := [.command 0#35, .sink (.room 1)] } : State).busy = true ∧
    ∃ t, step { busyFinish with input := [.command 0#35, .sink (.room 1)] } = .next t ∧ t.busy = true :=
  ⟨rfl, _, rfl, by decide⟩

theorem witness_BusyCoreStaysBusyWithoutTheSink :
    (presenting busyFinish [0x100000000#35]).busy = true ∧
    (presenting busyFinish [0x100000000#35]).input = [0x100000000#35].map HostEvent.command ∧
    busyFinish.busy = true ∧ busyFinish.st.fault = .none ∧
    ({ busyFinish with input := [.command 0#35, .reset] } : State).input =
      [0#35].map HostEvent.command ++ .reset :: [] ∧
    ({ busyFinish with input := [.command 0#35, .abort] } : State).input =
      [0#35].map HostEvent.command ++ .abort :: [] := by decide

theorem witness_AcceptingSinkCompletesTheCommand :
    busyFinish.inFlight = some ⟨[0x6D#8, 0x3D#8], recB .finished⟩ ∧
    ({ busyFinish with input := [.command 0#35, .sink (.room 2)] } : State).input =
      [0#35].map HostEvent.command ++ .sink (.room 2) :: [] ∧
    (Sink.room 2).hasRoom [0x6D#8, 0x3D#8].length = true ∧
    ({ busyFinish with input := [.command 0#35, .sink (.room 1)] } : State).input =
      [0#35].map HostEvent.command ++ .sink (.room 1) :: [] ∧
    1 < [0x6D#8, 0x3D#8].length := by decide

theorem witness_OutputOnlyGrowsByCharactersInRange :
    ({ busyFinish with input := [.sink .ready] } : State).Inv = true ∧
    ∃ t, step { busyFinish with input := [.sink .ready] } = .next t :=
  ⟨by decide, _, rfl⟩

theorem witness_InitFrame :
    (∃ t, exec (.initA 0x55#32) (withRecord (recB .streaming)) = .next t) ∧
    (∃ t, exec (.initB 0x55#32) (withRecord (recA .finished)) = .next t) := ⟨⟨_, rfl⟩, ⟨_, rfl⟩⟩

theorem witness_WordFrame :
    (∃ t, exec (.word 1#32) (withRecord (recA .fresh)) = .next t) ∧ (recA .fresh).variant = some .A ∧
    (∃ t, exec (.word 1#32) (withRecord (recB .fresh)) = .next t) ∧ (recB .fresh).variant = some .B ∧
    (∃ t, exec (.word 1#32) State.reset = .next t ∧ t.st.fault ≠ State.reset.st.fault) :=
  ⟨⟨_, rfl⟩, rfl, ⟨_, rfl⟩, rfl, ⟨_, rfl, by decide⟩⟩

theorem witness_FinishFrame :
    (∃ t, exec .finish (withRecord (recA .streaming)) = .next t) ∧
    (∃ t, exec .finish State.reset = .next t ∧ t.st.fault ≠ State.reset.st.fault) :=
  ⟨⟨_, rfl⟩, ⟨_, rfl, by decide⟩⟩

theorem witness_StepKeepsTheInvariant :
    (presenting (withRecord (recB .fresh)) [0x200000000#35]).Inv = true ∧
    ∃ t, step (presenting (withRecord (recB .fresh)) [0x200000000#35]) = .next t :=
  ⟨by decide, _, rfl⟩

theorem witness_StepNeverStops : (presenting (withRecord (recA .streaming)) [0x200000000#35]).Inv = true := by decide

theorem witness_VariantChangesOnlyByInitOrReset :
    (presenting (withRecord (recA .fresh)) [0x100000000#35]).Inv = true ∧
    (∃ t, step (presenting (withRecord (recA .fresh)) [0x100000000#35]) = .next t ∧ t.st.variant ≠ (recA .fresh).variant) ∧
    (∃ t, step { withRecord (recA .fresh) with input := [.reset] } = .next t ∧ t.st.variant ≠ (recA .fresh).variant) ∧
    (∃ t, step { busyFinish with input := [.command 0#35, .reset] } = .next t ∧ t.st.variant ≠ busyFinish.st.variant) :=
  ⟨by decide, ⟨_, rfl, by decide⟩, ⟨_, rfl, by decide⟩, ⟨_, rfl, by decide⟩⟩

theorem witness_PhaseTransitionTable :
    (withRecord (recB .streaming)).Inv = true ∧ (withRecord (recB .finished)).Inv = true ∧ State.reset.Inv = true ∧
    (withRecord (recB .streaming)).inFlight = none ∧ (withRecord (recB .streaming)).st.fault = .none ∧
    (withRecord (recB .streaming)).sink = .ready ∧ opField 0x600000000#35 = 0b11#2 := by decide

theorem witness_StatusOutputBits : (withRecord (recB .fresh)).st.variant = some .B := by decide

/- R55, R101: phase Idle and cause NoSession. -/
theorem test_status_idle_fault : (faulted .noSession Record.reset).status = 0x08#7 := by decide

theorem witness_BusyReadsZeroBetweenSteps :
    (presenting State.reset [0x100000000#35]).sink = .ready ∧ (presenting State.reset [0x100000000#35]).busy = false ∧
    (∀ k, HostEvent.sink k ∈ (presenting State.reset [0x100000000#35]).input → k = .ready) ∧
    ∃ t, step (presenting State.reset [0x100000000#35]) = .next t :=
  ⟨rfl, rfl, by simp [presenting], _, rfl⟩

theorem witness_GroupCharactersInRange :
    (group 0#32 0#6)[0]? = some 0x20#8 ∧ (group 0#32 0#6)[7]? = some 0x7F#8 := by decide

theorem witness_GroupDeterminesWordAndSpacer : group 0#32 0#6 = group 0#32 0#6 := by decide

theorem witness_OrderOfTwoWordsShows :
    (streamOf id .B 0#32 [7#32, 7#32]).take 16 = (streamOf id .B 0#32 [7#32, 7#32]).take 16 := rfl

theorem witness_FletcherWordClosedForm :
    (List.replicate 8 0x7F#8 : List Chr).length = 8 ∧ (254#8).toNat ≤ 254 ∧ (0#8).toNat ≤ 254 := by decide

theorem witness_OnlyTaggedTableEntriesAreRead :
    (∀ c : Chr, 0x20 ≤ c.toNat → c.toNat ≤ 0x7F →
      (fun x : Chr => if x = 0#8 then 1#8 else x) c = (fun x : Chr => x) c) ∧
    (withRecord (recB .fresh)).st.variant = some .B := by
  refine ⟨fun c h _ => ?_, rfl⟩
  have : c ≠ 0#8 := by rintro rfl; simp at h
  simp [this]

theorem witness_SpacerBInterleavesSixBits : 0xF39C#16 &&& 0x0C63#16 = 0x0000#16 &&& 0x0C63#16 := by decide

theorem witness_TrailerDeterminesItsValue : pack565 0x1234#16 = pack565 0x1234#16 := rfl

theorem witness_SessionEmitsItsStream :
    State.reset.inFlight = none ∧ State.reset.st.fault = .none ∧ State.reset.sink = .ready ∧
    ({ State.reset with input := present (streamCommands (initOf .B 0x15#32) [1#32, 2#32]) } : State).input =
      present (streamCommands (initOf .B 0x15#32) [1#32, 2#32]) ++ [] := by decide

theorem witness_SizeLaw :
    (withRecord (recA .finished)).inFlight = none ∧ (withRecord (recA .finished)).st.fault = .none ∧
    (withRecord (recA .finished)).sink = .ready ∧
    ({ withRecord (recA .finished) with input := present (streamCommands (initOf .A 0#32) []) } : State).input =
      present (streamCommands (initOf .A 0#32) []) ++ [] := by decide

theorem witness_SessionOutputIsDetermined :
    (0x15#32).toNat % 64 = (0x55#32).toNat % 64 ∧
    State.reset.inFlight = none ∧ State.reset.st.fault = .none ∧ State.reset.sink = .ready ∧
    (withRecord (recA .streaming)).inFlight = none ∧ (withRecord (recA .streaming)).st.fault = .none ∧
    (withRecord (recA .streaming)).sink = .ready ∧
    ({ State.reset with input := present (streamCommands (initOf .B 0x15#32) [1#32]) } : State).input =
      present (streamCommands (initOf .B 0x15#32) [1#32]) ++ [] ∧
    ({ withRecord (recA .streaming) with
        input := present (streamCommands (initOf .B 0x55#32) [1#32]) ++ [.reset] } : State).input =
      present (streamCommands (initOf .B 0x55#32) [1#32]) ++ [.reset] := by decide

theorem witness_AbandonedSession :
    State.reset.inFlight = none ∧ State.reset.st.fault = .none ∧ State.reset.sink = .ready ∧
    ({ State.reset with input := present (initOf .A 0#32 :: [1#32].map Instr.word) } : State).input =
      present (initOf .A 0#32 :: [1#32].map Instr.word) := by decide

theorem witness_ContractKeepingHostSeesNoFault :
    State.reset.Inv = true ∧ State.reset.inFlight = none ∧ State.reset.st.fault = .none ∧ State.reset.sink = .ready ∧
    ({ State.reset with input := present [.initB 0#32, .word 5#32, .finish, .initA 1#32, .finish] } : State).input =
      present [.initB 0#32, .word 5#32, .finish, .initA 1#32, .finish] ++ [] ∧
    sessionOk State.reset.st.phase [.initB 0#32, .word 5#32, .finish, .initA 1#32, .finish] = true := by decide

end Sys2Proof.Tests
end

namespace Sys2Proof.Machine

/-! ## Reset (spec/10_state.md R21, spec/70_reset_and_hazards.md R120) -/

/-- An action that is no command takes place at once when it stands first: a command in progress holds back presented
commands only (R125). -/
theorem nextEvent_cons_of_ne_command {s : State} {e : HostEvent} {rest : List HostEvent}
    (he : ∀ c, e ≠ .command c) (h : s.input = e :: rest) :
    nextEvent s = some (e, { s with input := rest }) := by
  obtain hi | ⟨f, hi⟩ := Option.eq_none_or_eq_some s.inFlight
  · exact nextEvent_idle hi h
  · exact nextEvent_busy (cs := []) hi he h

/-- Busy or not, a step at which reset stands first is that reset. -/
theorem step_of_reset_first {s : State} {rest : List HostEvent} (h : s.input = .reset :: rest) :
    step s = .next (applyReset { s with input := rest }) :=
  step_of_reset (nextEvent_cons_of_ne_command (fun _ => HostEvent.noConfusion) h)

/-- Settles O1: the reset record is R21's literal, and a step at which reset stands first is `applyReset`, whether a
command is in progress or not. -/
theorem resetSetsEveryField : Obligations.ResetSetsEveryField := by
  unfold Obligations.ResetSetsEveryField
  refine ⟨rfl, busy_of_inFlight_none rfl, fun s rest h => ?_⟩
  exact step_of_reset_first h

end Sys2Proof.Machine

namespace Sys2Proof

/-! ## Decoding by the OP field alone (spec/30_encoding.md R41, R43, R46) -/

/-- A row whose mask covers OP selects only words with the row's OP. -/
theorem opField_of_rowSelects {r : OpcodeRow} {c : CmdWord} (hm : opField r.mask = BitVec.allOnes 2)
    (h : rowSelects r c = true) : opField c = opField r.pattern := by
  rw [← (rowSelects_iff r c).mp h]
  calc opField c = opField c &&& opField r.mask := by rw [hm, BitVec.and_allOnes]
    _ = opField (c &&& r.mask) := BitVec.extractLsb'_and.symm

/-- The mask of WORD and FINISH keeps OP and clears VAR and OPERAND. -/
theorem and_opMask (c : CmdWord) : c &&& 0x600000000#35 = opField c ++ 0#33 := by
  have hc : c = opField c ++ c.extractLsb' 0 33 := by
    rw [opField, BitVec.extractLsb'_append_extractLsb'_eq_extractLsb' (by rfl), BitVec.extractLsb'_eq_self]
  have hm : 0x600000000#35 = BitVec.allOnes 2 ++ 0#33 := by decide
  calc c &&& 0x600000000#35
      = (opField c ++ c.extractLsb' 0 33) &&& (BitVec.allOnes 2 ++ 0#33) := by rw [← hc, hm]
    _ = opField c ++ 0#33 := by rw [BitVec.and_append, BitVec.and_allOnes, BitVec.and_zero]

/-- R43, R46: the row WORD selects by OP alone. -/
theorem rowSelects_rowWord_iff (c : CmdWord) : rowSelects rowWord c = true ↔ opField c = 0b01#2 := by
  refine ⟨opField_of_rowSelects (by decide), fun h => ?_⟩
  rw [rowSelects_iff, rowWord, and_opMask, h]
  decide

/-- R43, R46: the row FINISH selects by OP alone. -/
theorem rowSelects_rowFinish_iff (c : CmdWord) : rowSelects rowFinish c = true ↔ opField c = 0b10#2 := by
  refine ⟨opField_of_rowSelects (by decide), fun h => ?_⟩
  rw [rowSelects_iff, rowFinish, and_opMask, h]
  decide

/-- A row of another OP does not select the word. -/
theorem rowSelects_eq_false_of_opField_ne {r : OpcodeRow} {c : CmdWord} (hm : opField r.mask = BitVec.allOnes 2)
    (h : opField c ≠ opField r.pattern) : rowSelects r c = false :=
  Bool.eq_false_iff.mpr fun hs => h (opField_of_rowSelects hm hs)

/-- A word whose OP is not 00 is no INIT. -/
theorem rowSelects_init_eq_false {c : CmdWord} (h : opField c ≠ 0b00#2) :
    rowSelects rowInitA c = false ∧ rowSelects rowInitB c = false :=
  ⟨rowSelects_eq_false_of_opField_ne (by decide) h, rowSelects_eq_false_of_opField_ne (by decide) h⟩

/-- A word with OP = 01 is WORD with the word's OPERAND, whatever its VAR. -/
theorem decode_of_opField_word {c : CmdWord} (h : opField c = 0b01#2) :
    decode c = .command (.word (operandField c)) := by
  obtain ⟨hA, hB⟩ := rowSelects_init_eq_false (c := c) (by rw [h]; decide)
  simp [decode, hA, hB, (rowSelects_rowWord_iff c).mpr h]

/-- A word with OP = 10 is FINISH, whatever its VAR and OPERAND. -/
theorem decode_of_opField_finish {c : CmdWord} (h : opField c = 0b10#2) : decode c = .command .finish := by
  obtain ⟨hA, hB⟩ := rowSelects_init_eq_false (c := c) (by rw [h]; decide)
  have hW : rowSelects rowWord c = false := rowSelects_eq_false_of_opField_ne (by decide) (by rw [h]; decide)
  simp [decode, hA, hB, hW, (rowSelects_rowFinish_iff c).mpr h]

end Sys2Proof

namespace Sys2Proof.Machine

/-- A free core sees of a presented word only what it decodes to. -/
theorem step_command_congr {s : State} {c c' : CmdWord} (rest : List HostEvent) (hi : s.inFlight = none)
    (h : decode c = decode c') :
    step { s with input := .command c :: rest } = step { s with input := .command c' :: rest } := by
  have hnext : ∀ d : CmdWord, nextEvent { s with input := .command d :: rest } =
      some (.command d, { s with input := rest }) := fun _ => nextEvent_idle hi rfl
  simp [step, hnext, h]

/-- Settles O7: the two words decode to the same command, and that is all a step of a free core sees of a word. -/
theorem ignoredBitsHaveNoEffect : Obligations.IgnoredBitsHaveNoEffect := by
  unfold Obligations.IgnoredBitsHaveNoEffect
  intro s c c' rest hi hc
  refine step_command_congr rest hi ?_
  obtain ⟨hop, hop', hoperand⟩ | ⟨hop, hop'⟩ := hc
  · rw [decode_of_opField_word hop, decode_of_opField_word hop', hoperand]
  · rw [decode_of_opField_finish hop, decode_of_opField_finish hop']

/-! ## INIT's header (spec/30_encoding.md R44, R127) -/

/-- INIT's header is its operand modulo 64. -/
theorem headerOf_eq_ofNat (h : Word) : headerOf h = BitVec.ofNat 6 (h.toNat % 64) := by
  apply BitVec.eq_of_toNat_eq
  simp [headerOf]

/-- INIT.A uses its operand through the header alone. -/
theorem exec_initA_congr {h h' : Word} (s : State) (e : headerOf h = headerOf h') :
    exec (.initA h) s = exec (.initA h') s := by
  simp only [exec, execInitA, e]

/-- INIT.B uses its operand through the header alone. -/
theorem exec_initB_congr {h h' : Word} (s : State) (e : headerOf h = headerOf h') :
    exec (.initB h) s = exec (.initB h') s := by
  simp only [exec, execInitB, e]

/-- Settles O8: both INIT forms go through `headerOf`, which is the operand modulo 64, and past the prologue they write a
record with that spacer and the fault field as it was. -/
theorem headerIsTruncatedToSixBits : Obligations.HeaderIsTruncatedToSixBits := by
  unfold Obligations.HeaderIsTruncatedToSixBits
  refine ⟨fun h h' s hmod => ?_, fun h s hi hf => ?_⟩
  · have e : headerOf h = headerOf h' := by rw [headerOf_eq_ofNat, headerOf_eq_ofNat, hmod]
    exact ⟨exec_initA_congr s e, exec_initB_congr s e⟩
  · have hsp : some (headerOf h) = some (BitVec.ofNat 6 (h.toNat % 64)) := congrArg some (headerOf_eq_ofNat h)
    exact ⟨⟨_, exec_of_effect (i := .initA h) hi hf ⟨rfl, rfl⟩, hf, hsp⟩,
      ⟨_, exec_of_effect (i := .initB h) hi hf ⟨rfl, rfl⟩, hf, hsp⟩⟩

end Sys2Proof.Machine

namespace Sys2Proof.Machine

/-! ## The spacer of each variant (spec/41_checksum_engine.md R64, R70) -/

/-- R70: bits 0 and 1 of variant B's spacer come from the field of `chk` at bit 0, bits 2 and 3 from the one at bit 5,
and the rest from the one at bit 10. -/
theorem spacerB_getLsbD (chk : BitVec 16) (i : Nat) :
    (spacerB chk).getLsbD i =
      if i < 2 then (chk.extractLsb' 0 2).getLsbD i
      else if i - 2 < 2 then (chk.extractLsb' 5 2).getLsbD (i - 2)
      else (chk.extractLsb' 10 2).getLsbD (i - 2 - 2) := by
  have happ : (spacerB chk).getLsbD i =
      (chk.extractLsb' 10 2 ++ chk.extractLsb' 5 2 ++ chk.extractLsb' 0 2).getLsbD i := rfl
  rw [happ, BitVec.getLsbD_append, BitVec.getLsbD_append]

/-- The mask 0x0C63 keeps every bit that variant B's spacer reads. -/
theorem spacerB_and_mask (chk : BitVec 16) : spacerB (chk &&& 0x0C63#16) = spacerB chk := by
  have h10 : (0x0C63#16).extractLsb' 10 2 = BitVec.allOnes 2 := by decide
  have h5 : (0x0C63#16).extractLsb' 5 2 = BitVec.allOnes 2 := by decide
  have h0 : (0x0C63#16).extractLsb' 0 2 = BitVec.allOnes 2 := by decide
  simp only [spacerB, BitVec.extractLsb'_and, h10, h5, h0, BitVec.and_allOnes]

/-- Settles O53: each of the six bits lies in one of the three fields; the second part since
the spacer of a value is that of its masked value. -/
theorem spacerBInterleavesSixBits : Obligations.SpacerBInterleavesSixBits := by
  unfold Obligations.SpacerBInterleavesSixBits
  refine ⟨fun chk => ?_, fun chk chk' h => ?_⟩
  · simp only [spacerB_getLsbD, BitVec.getLsbD_extractLsb']
    simp
  · calc spacerB chk = spacerB (chk &&& 0x0C63#16) := (spacerB_and_mask chk).symm
      _ = spacerB (chk' &&& 0x0C63#16) := by rw [h]
      _ = spacerB chk' := spacerB_and_mask chk'

/-- Settles O52: the field at bit 0 of width 6 is the value modulo 2 ^ 6. -/
theorem spacerAIsTheLowBits : Obligations.SpacerAIsTheLowBits := by
  unfold Obligations.SpacerAIsTheLowBits
  intro s2
  simp [spacerA, BitVec.extractLsb'_toNat]

/-! ## One Fletcher step (spec/41_checksum_engine.md R62) -/

/-- Settles O45: the definition of the step, on numbers. -/
theorem fletcherStepAddsThePostAddSum : Obligations.FletcherStepAddsThePostAddSum := by
  unfold Obligations.FletcherStepAddsThePostAddSum
  intro T s1 s2 c
  rfl

/-! ## CRC rounds and the byte update (spec/41_checksum_engine.md R65 to R67) -/

/-- The polynomial keeps its value at every width that holds it. -/
theorem toNat_crc16Poly_setWidth {n : Nat} (hn : 16 ≤ n) : (crc16Poly.setWidth n).toNat = 0xA6BC := by
  rw [BitVec.toNat_setWidth_of_le hn]
  rfl

/-- R65 on numbers, at every width that holds the polynomial. -/
theorem crcBit_toNat {n : Nat} (hn : 16 ≤ n) (a : BitVec n) :
    (crcBit a).toNat = if a.toNat % 2 = 1 then (a.toNat / 2) ^^^ 0xA6BC else a.toNat / 2 := by
  have hshift : (a >>> 1).toNat = a.toNat / 2 := by
    rw [BitVec.toNat_ushiftRight, Nat.shiftRight_one]
  have hodd : a.getLsbD 0 = true ↔ a.toNat % 2 = 1 := by
    rw [BitVec.getLsbD, Nat.testBit_zero, decide_eq_true_iff]
  by_cases h : a.getLsbD 0 = true
  · rw [crcBit, if_pos h, if_pos (hodd.mp h), BitVec.toNat_xor, hshift, toNat_crc16Poly_setWidth hn]
  · rw [crcBit, if_neg h, if_neg (mt hodd.mpr h), hshift]

/-- Settles O48: `crcBit_toNat` at the two widths. -/
theorem crcRoundShiftsAndFeedsBack : Obligations.CrcRoundShiftsAndFeedsBack := by
  unfold Obligations.CrcRoundShiftsAndFeedsBack
  exact ⟨crcBit_toNat (by decide), crcBit_toNat (by decide)⟩

/-- Settles O49: the eight rounds of `crcByte` written out, and the seed by definition. -/
theorem crcByteIsEightRounds : Obligations.CrcByteIsEightRounds := by
  unfold Obligations.CrcByteIsEightRounds
  refine ⟨fun crc x => ?_, fun s => ?_⟩
  · simp only [crcByte, crcRounds_succ, crcRounds_zero]
  · rw [initB, crc16Seed]

/-! ## The trailer (spec/41_checksum_engine.md R71, R72) -/

/-- R71: the three fields of the trailer with the tags of their positions. -/
theorem pack565_eq (v : BitVec 16) :
    pack565 v = [(v.extractLsb' 0 5).setWidth 8 ||| quintetTag, (v.extractLsb' 5 6).setWidth 8 ||| sextetTag,
      (v.extractLsb' 11 5).setWidth 8 ||| quintetTag] := rfl

/-- R72: variant A's value has `sum2` in its high byte and `sum1` in its low one. -/
theorem checkValue_fletcher_toNat (s1 s2 : BitVec 8) :
    (checkValue (.fletcher s1 s2)).toNat = s2.toNat * 256 + s1.toNat := by
  have hlow : s1.toNat < 2 ^ 8 := s1.isLt
  calc (s2 ++ s1).toNat = s2.toNat <<< 8 + s1.toNat := by
        rw [BitVec.toNat_append, Nat.shiftLeft_add_eq_or_of_lt hlow]
    _ = s2.toNat * 256 + s1.toNat := by rw [Nat.shiftLeft_eq]

/-- Settles O54: the trailer's three characters, and the value of each accumulator. -/
theorem trailerLayout : Obligations.TrailerLayout := by
  unfold Obligations.TrailerLayout
  exact ⟨pack565_eq, checkValue_fletcher_toNat, fun _ => rfl⟩

end Sys2Proof.Machine

namespace Sys2Proof.Machine

/-! ## The word group (spec/42_word_codec.md R80 to R85) -/

/-- R83: from an even position on, a quintet's tag and a sextet's tag alternate. -/
theorem tagFrom_pair {p : Nat} (hp : p % 2 = 0) (q x : BitVec 8) (fs : List (BitVec 8)) :
    tagFrom p (q :: x :: fs) = (q ||| quintetTag) :: (x ||| sextetTag) :: tagFrom (p + 2) fs := by
  have hodd : ¬ (p + 1) % 2 = 0 := by omega
  simp only [tagFrom, tag, if_pos hp, if_neg hodd]

/-- R84: the group of a word is its six fields, the spacer at position 3 and the parity at position 7, tagged in pairs. -/
theorem group_eq (w : Word) (s : Spacer) :
    group w s =
      [(split w).b0.setWidth 8 ||| quintetTag, (split w).b1.setWidth 8 ||| sextetTag,
       (split w).b2.setWidth 8 ||| quintetTag, s.setWidth 8 ||| sextetTag,
       (split w).b3.setWidth 8 ||| quintetTag, (split w).b4.setWidth 8 ||| sextetTag,
       (split w).b5.setWidth 8 ||| quintetTag, (parity (split w) s).setWidth 8 ||| sextetTag] := by
  rw [group, payload, tagFrom_pair rfl, tagFrom_pair rfl, tagFrom_pair rfl, tagFrom_pair rfl, tagFrom]

/-- Settles O40: the parity of the word's fields is the witness, and `group_eq` is the layout. -/
theorem groupLayout : Obligations.GroupLayout := by
  unfold Obligations.GroupLayout
  intro w s
  exact ⟨parity (split w) s, rfl, group_eq w s⟩

end Sys2Proof.Machine

namespace Sys2Proof

/-! ## Decoding by a row's mask and pattern (spec/30_encoding.md R43) -/

/-- A word that row INIT.A selects is INIT.A with the word's OPERAND. -/
theorem decode_of_rowInitA {c : CmdWord} (h : rowSelects rowInitA c = true) :
    decode c = .command (.initA (operandField c)) := if_pos h

/-- The two INIT rows share their mask and differ in their pattern, so no word is selected by both. -/
theorem rowSelects_rowInitA_eq_false {c : CmdWord} (h : rowSelects rowInitB c = true) :
    rowSelects rowInitA c = false := by
  rw [Bool.eq_false_iff, ne_eq, rowSelects_iff]
  intro hA
  have hpattern : rowInitA.pattern = rowInitB.pattern := hA.symm.trans ((rowSelects_iff rowInitB c).mp h)
  exact absurd hpattern (by decide)

/-- A word that row INIT.B selects is INIT.B with the word's OPERAND. -/
theorem decode_of_rowInitB {c : CmdWord} (h : rowSelects rowInitB c = true) :
    decode c = .command (.initB (operandField c)) := by
  simp [decode, rowSelects_rowInitA_eq_false h, h]

/-- A word that row WORD selects is WORD with the word's OPERAND. -/
theorem decode_of_rowWord {c : CmdWord} (h : rowSelects rowWord c = true) :
    decode c = .command (.word (operandField c)) :=
  decode_of_opField_word ((rowSelects_rowWord_iff c).mp h)

/-- A word that row FINISH selects is FINISH. -/
theorem decode_of_rowFinish {c : CmdWord} (h : rowSelects rowFinish c = true) : decode c = .command .finish :=
  decode_of_opField_finish ((rowSelects_rowFinish_iff c).mp h)

end Sys2Proof

namespace Sys2Proof.Machine

/-! ## A command that completes in one step (spec/43_encoder_commands.md R90 to R94) -/

/-- R94: on a channel with room for its characters, a command past its prologue delivers them and writes its record. -/
theorem exec_of_effect_of_hasRoom {i : Instr} {s : State} {target : Record} {cs : List Chr} (hi : s.inFlight = none)
    (hf : s.st.fault = .none) (he : Effect s.st target cs i) (hroom : s.sink.hasRoom cs.length = true) :
    exec i s = .next { s with st := target, out := s.out ++ cs, sink := s.sink.after cs.length } := by
  rw [exec_of_effect hi hf he, deliver_of_hasRoom target cs s hroom, ← hi]

/-- R98, R106: a command that raises a cause records it and changes nothing else. -/
theorem exec_of_raises_eq {i : Instr} {s : State} {c : Cause} (hi : s.inFlight = none) (hf : s.st.fault = .none)
    (hr : Raises s.st c i) : exec i s = .next { s with st := { s.st with fault := c } } := by
  rw [exec_of_raises hi hf hr, raiseFault_eq c hi hf]

/-- A command with no characters writes its record at acceptance, whatever the channel accepts. -/
theorem exec_of_silent_effect {i : Instr} {s : State} {target : Record} (hi : s.inFlight = none)
    (hf : s.st.fault = .none) (he : Effect s.st target [] i) : exec i s = .next { s with st := target } := by
  rw [exec_of_effect hi hf he, deliver_nil, ← hi]

/-- R92: WORD in an open session, on a channel with room for its group, for either accumulator. -/
theorem exec_word_of_hasRoom {w : Word} {s : State} {sp : Spacer} {a : Accumulator} (hi : s.inFlight = none)
    (hf : s.st.fault = .none) (hp : s.st.phase = .fresh ∨ s.st.phase = .streaming) (hroom : s.sink.hasRoom 8 = true)
    (hsp : s.st.spacer = some sp) (ha : HoldsAccumulator s.st a) :
    exec (.word w) s =
      .next { s with
        st := wordRecord (engineWord Config.crc8Table a w (group w sp)).1
          (engineWord Config.crc8Table a w (group w sp)).2 s.st,
        out := s.out ++ group w sp, sink := s.sink.after 8 } := by
  rw [← group_length w sp] at hroom
  rw [exec_of_effect_of_hasRoom (i := .word w) hi hf ⟨hp, sp, a, hsp, ha, rfl, rfl⟩ hroom, group_length]

/-- R93: FINISH in an open session, on a channel with room for the trailer, for either accumulator. -/
theorem exec_finish_of_hasRoom {s : State} {a : Accumulator} (hi : s.inFlight = none) (hf : s.st.fault = .none)
    (hp : s.st.phase = .fresh ∨ s.st.phase = .streaming) (hroom : s.sink.hasRoom 3 = true)
    (ha : HoldsAccumulator s.st a) :
    exec .finish s =
      .next { s with
        st := { s.st with phase := .finished },
        out := s.out ++ pack565 (checkValue a), sink := s.sink.after 3 } := by
  rw [← pack565_length (checkValue a)] at hroom
  rw [exec_of_effect_of_hasRoom (i := .finish) hi hf ⟨hp, a, ha, rfl, rfl⟩ hroom, pack565_length]

/-- Settles O13: `exec_word_of_hasRoom` at each variant's accumulator, where the engine's update is `fletcherWord` or
`crcWord`; the two faults and the ignored command are the prologue's. -/
theorem wordEncodesOneWord : Obligations.WordEncodesOneWord := by
  unfold Obligations.WordEncodesOneWord
  refine ⟨fun c hc => ?decoding, fun w s sp s1 s2 hi hf hp hroom hsp hv h1 h2 => ?variantA,
    fun w s sp chk hi hf hp hroom hsp hv hchk => ?variantB, fun w s hi hf hp => ?idle, fun w s hi hf hp => ?finished,
    fun w s hf => ?faulted⟩
  case decoding => exact decode_of_rowWord ((rowSelects_iff rowWord c).mpr hc)
  case variantA => exact exec_word_of_hasRoom (a := .fletcher s1 s2) hi hf hp hroom hsp ⟨hv, h1, h2⟩
  case variantB => exact exec_word_of_hasRoom (a := .crc chk) hi hf hp hroom hsp ⟨hv, hchk⟩
  case idle => exact exec_of_raises_eq hi hf (.inl ⟨hp, rfl⟩)
  case finished => exact exec_of_raises_eq hi hf (.inr ⟨hp, rfl⟩)
  case faulted => exact exec_of_fault (.word w) hf

/-- Settles O14: `exec_finish_of_hasRoom` at each variant's accumulator, whose check value is `sum2:sum1` or `chk`; the
two faults and the ignored command are the prologue's. -/
theorem finishEmitsTheTrailer : Obligations.FinishEmitsTheTrailer := by
  unfold Obligations.FinishEmitsTheTrailer
  refine ⟨fun c hc => ?decoding, fun s s1 s2 hi hf hp hroom hv h1 h2 => ?variantA,
    fun s chk hi hf hp hroom hv hchk => ?variantB, fun s hi hf hp => ?idle, fun s hi hf hp => ?finished,
    fun s hf => ?faulted⟩
  case decoding => exact decode_of_rowFinish ((rowSelects_iff rowFinish c).mpr hc)
  case variantA => exact exec_finish_of_hasRoom (a := .fletcher s1 s2) hi hf hp hroom ⟨hv, h1, h2⟩
  case variantB => exact exec_finish_of_hasRoom (a := .crc chk) hi hf hp hroom ⟨hv, hchk⟩
  case idle => exact exec_of_raises_eq hi hf (.inl ⟨hp, rfl⟩)
  case finished => exact exec_of_raises_eq hi hf (.inr ⟨hp, rfl⟩)
  case faulted => exact exec_of_fault .finish hf

/-- Settles O11: INIT.A emits nothing, so it writes its record at acceptance; its fault field is the 0 it read. -/
theorem initAStartsAVariantASession : Obligations.InitAStartsAVariantASession := by
  unfold Obligations.InitAStartsAVariantASession
  refine ⟨fun c hc => decode_of_rowInitA ((rowSelects_iff rowInitA c).mpr hc), fun h s hi hf => ?_,
    fun h s hf => exec_of_fault (.initA h) hf⟩
  rw [exec_of_silent_effect (i := .initA h) hi hf ⟨rfl, rfl⟩, startA, hf]
  rfl

/-- Settles O12: INIT.B emits nothing, so it writes its record at acceptance; its fault field is the 0 it read, and its
`chk` is `initB` of the header. -/
theorem initBStartsAVariantBSession : Obligations.InitBStartsAVariantBSession := by
  unfold Obligations.InitBStartsAVariantBSession
  refine ⟨fun c hc => decode_of_rowInitB ((rowSelects_iff rowInitB c).mpr hc), fun h s hi hf => ?_,
    fun h s hf => exec_of_fault (.initB h) hf⟩
  rw [exec_of_silent_effect (i := .initB h) hi hf ⟨rfl, rfl⟩, startB, hf]
  rfl

end Sys2Proof.Machine

namespace Sys2Proof

/-- A word with OP = 11 selects no command, whatever its VAR and OPERAND (R47). -/
theorem decode_of_opField_reserved {c : CmdWord} (h : opField c = 0b11#2) : decode c = .rejected .reservedOp := by
  obtain ⟨hA, hB⟩ := rowSelects_init_eq_false (c := c) (by rw [h]; decide)
  have hW : rowSelects rowWord c = false := rowSelects_eq_false_of_opField_ne (by decide) (by rw [h]; decide)
  have hF : rowSelects rowFinish c = false := rowSelects_eq_false_of_opField_ne (by decide) (by rw [h]; decide)
  simp [decode, hA, hB, hW, hF]

end Sys2Proof

namespace Sys2Proof.Machine

/-! ## A core with a fault recorded (spec/60_exceptions.md R107, R108) -/

/-- R107: a faulted core ignores the command word it is given, whether the word selects a command or is reserved. -/
theorem step_of_command_of_fault {s t : State} {c : CmdWord} (hn : nextEvent s = some (.command c, t))
    (hf : t.st.fault ≠ .none) : step s = .next t := by
  cases hd : decode c with
  | command i => rw [step_of_command hn hd, exec_of_fault i hf]
  | rejected r => exact (step_of_reserved hn hd).trans (runCommand_of_fault .reserved _ hf)

/-- Settles O18: the first check of the prologue ignores every command of a faulted core. -/
theorem faultedCoreIgnoresEveryCommand : Obligations.FaultedCoreIgnoresEveryCommand := by
  unfold Obligations.FaultedCoreIgnoresEveryCommand
  exact ⟨fun i s hf => exec_of_fault i hf,
    fun s c rest hi hf hin => step_of_command_of_fault (nextEvent_idle hi hin) hf⟩

/-- Under the invariant a faulted core is free: a command in progress began with no fault recorded (R37). -/
theorem inFlight_eq_none_of_fault {s : State} (hinv : s.Inv = true) (hf : s.st.fault ≠ .none) : s.inFlight = none := by
  cases hi : s.inFlight with
  | none => rfl
  | some f => simp [State.Inv, InFlight.coherent, hi, hf] at hinv

/-- With no action to come, no action is next. -/
theorem nextEvent_of_input_nil {s : State} (h : s.input = []) : nextEvent s = none := by
  simp [nextEvent, h, firstControl, firstEvent]

/-- Settles O19: by the invariant the faulted core is free, so the step takes the first action of the input. A command is
ignored, and the actions on the output channel leave the record of a free core; what remains is reset. -/
theorem onlyResetClearsAFault : Obligations.OnlyResetClearsAFault := by
  unfold Obligations.OnlyResetClearsAFault
  intro s t hinv hf hstep
  have hi := inFlight_eq_none_of_fault hinv hf
  cases hin : s.input with
  | nil =>
    rw [step_of_none (nextEvent_of_input_nil hin)] at hstep
    cases hstep
    exact ⟨rfl, .inl rfl⟩
  | cons e rest =>
    have hn := nextEvent_idle hi hin
    cases e with
    | command c =>
      rw [step_of_command_of_fault hn hf] at hstep
      cases hstep
      exact ⟨rfl, .inl rfl⟩
    | sink k =>
      rw [step_of_sink hn, changeSink_none (s := { s with input := rest }) k hi] at hstep
      cases hstep
      exact ⟨rfl, .inl rfl⟩
    | abort =>
      rw [step_of_abort hn, abortSink_none (s := { s with input := rest }) hi] at hstep
      cases hstep
      exact ⟨rfl, .inl rfl⟩
    | reset =>
      rw [step_of_reset hn] at hstep
      cases hstep
      exact ⟨rfl, .inr ⟨rest, rfl, rfl⟩⟩

/-! ## Fault entry, cause by cause (spec/60_exceptions.md R102 to R105) -/

/-- Settles O15: the session check of the prologue raises the cause of phase Idle, for both commands. -/
theorem commandWithoutSessionRaisesNoSession : Obligations.CommandWithoutSessionRaisesNoSession := by
  unfold Obligations.CommandWithoutSessionRaisesNoSession
  rintro i s (⟨w, rfl⟩ | rfl) hi hf hp
  · exact exec_of_raises_eq hi hf (.inl ⟨hp, rfl⟩)
  · exact exec_of_raises_eq hi hf (.inl ⟨hp, rfl⟩)

/-- Settles O16: the session check of the prologue raises the cause of phase Finished, for both commands. -/
theorem commandAfterFinishRaisesAfterFinish : Obligations.CommandAfterFinishRaisesAfterFinish := by
  unfold Obligations.CommandAfterFinishRaisesAfterFinish
  rintro i s (⟨w, rfl⟩ | rfl) hi hf hp
  · exact exec_of_raises_eq hi hf (.inr ⟨hp, rfl⟩)
  · exact exec_of_raises_eq hi hf (.inr ⟨hp, rfl⟩)

/-- R104: a reserved word records IllegalCommand and changes nothing else, in every phase. -/
theorem takeIllegalCommand_eq {s : State} (hi : s.inFlight = none) (hf : s.st.fault = .none) :
    takeIllegalCommand s = .next { s with st := { s.st with fault := .illegalCommand } } := by
  rw [takeIllegalCommand, runCommand_raise _ hi (prologue_reserved hf), raiseFault_eq .illegalCommand hi hf]

/-- Settles O17: the word is rejected by its OP field, and a rejected word is `takeIllegalCommand`. -/
theorem reservedOpRaisesIllegalCommand : Obligations.ReservedOpRaisesIllegalCommand := by
  unfold Obligations.ReservedOpRaisesIllegalCommand
  intro s c rest hi hf hin hop
  rw [step_of_reserved (nextEvent_idle hi hin) (decode_of_opField_reserved hop)]
  exact takeIllegalCommand_eq hi hf

/-- R105: an abort with a command in progress drops it, its record unwritten, and records SinkAbort. -/
theorem abortSink_eq {s : State} {f : InFlight} (hi : s.inFlight = some f) (hf : s.st.fault = .none) :
    abortSink s = { s with inFlight := none, st := { s.st with fault := .sinkAbort } } := by
  rw [abortSink_some hi, raiseFault, recordCause_of_none .sinkAbort s.st hf]

/-- Settles O23: an abort that stands first is taken at once by a busy core, and is `abortSink`. -/
theorem sinkAbortEndsTheCommand : Obligations.SinkAbortEndsTheCommand := by
  unfold Obligations.SinkAbortEndsTheCommand
  intro s f rest hi hf hin
  have hn := nextEvent_cons_of_ne_command (fun _ => HostEvent.noConfusion) hin
  rw [step_of_abort hn, abortSink_eq (s := { s with input := rest }) hi hf]

end Sys2Proof.Machine

namespace Sys2Proof

/-! ## The fields of a command word (spec/30_encoding.md R41) -/

/-- A word is its three fields, OP highest. -/
theorem fields_append (c : CmdWord) : opField c ++ varField c ++ operandField c = c := by
  rw [opField, varField, operandField, BitVec.extractLsb'_append_extractLsb'_eq_extractLsb' (by rfl),
    BitVec.extractLsb'_append_extractLsb'_eq_extractLsb' (by rfl), BitVec.extractLsb'_eq_self]

section fields
variable (op : BitVec 2) (var : BitVec 1) (x : Word)

@[simp] theorem operandField_append : operandField (op ++ var ++ x) = x := BitVec.extractLsb'_append_eq_right

@[simp] theorem opField_append : opField (op ++ var ++ x) = op := by
  rw [opField, BitVec.extractLsb'_append_eq_of_le (by decide)]
  exact BitVec.extractLsb'_append_eq_left

@[simp] theorem varField_append : varField (op ++ var ++ x) = var := by
  rw [varField, BitVec.extractLsb'_append_eq_of_le (by decide)]
  exact BitVec.extractLsb'_append_eq_right

/-- A pattern without operand bits, joined with an operand, has that operand as its OPERAND. -/
theorem pattern_or_operand : op ++ var ++ 0#32 ||| x.setWidth 35 = op ++ var ++ x := by
  have hx : x.setWidth 35 = 0#3 ++ x := BitVec.setWidth_eq_append (by decide)
  rw [hx, BitVec.or_append, BitVec.or_zero, BitVec.zero_or]

end fields

/-- The mask of the INIT rows keeps OP and VAR and clears OPERAND. -/
theorem and_opVarMask (c : CmdWord) : c &&& 0x700000000#35 = opField c ++ varField c ++ 0#32 := by
  have hm : 0x700000000#35 = BitVec.allOnes 3 ++ 0#32 := by decide
  calc c &&& 0x700000000#35
      = (opField c ++ varField c ++ operandField c) &&& (BitVec.allOnes 3 ++ 0#32) := by rw [fields_append, hm]
    _ = opField c ++ varField c ++ 0#32 := by rw [BitVec.and_append, BitVec.and_allOnes, BitVec.and_zero]

/-! ## Encoding, field by field (R43, R48) -/

theorem encode_initA (h : Word) : encode (.initA h) = 0b00#2 ++ 0b0#1 ++ h := pattern_or_operand 0b00#2 0b0#1 h
theorem encode_initB (h : Word) : encode (.initB h) = 0b00#2 ++ 0b1#1 ++ h := pattern_or_operand 0b00#2 0b1#1 h
theorem encode_word (w : Word) : encode (.word w) = 0b01#2 ++ 0b0#1 ++ w := pattern_or_operand 0b01#2 0b0#1 w
theorem encode_finish : encode .finish = 0b10#2 ++ 0b0#1 ++ 0#32 := rfl

/-- Decoding what the encoder writes gives the instruction back: the encoder writes the instruction's row, and its
operand into OPERAND. -/
theorem decode_encode (i : Instr) : decode (encode i) = .command i := by
  cases i with
  | initA h => rw [decode_of_rowInitA (Laws.TableRow.initA h), encode_initA, operandField_append]
  | initB h => rw [decode_of_rowInitB (Laws.TableRow.initB h), encode_initB, operandField_append]
  | word w => rw [decode_of_rowWord (Laws.TableRow.word w), encode_word, operandField_append]
  | finish => exact decode_of_rowFinish Laws.TableRow.finish

/-- Settles O4: `decode_encode`; every instruction is well formed. -/
theorem decodeOfEncode : Obligations.DecodeOfEncode := by
  unfold Obligations.DecodeOfEncode
  exact fun i _ => decode_encode i

/-! ## The opcode map partitions the words (R43) -/

/-- Under the mask of the INIT rows a word is a pattern exactly when its OP and VAR are the pattern's. -/
theorem and_opVarMask_eq_iff (c : CmdWord) (op : BitVec 2) (var : BitVec 1) :
    c &&& 0x700000000#35 = op ++ var ++ 0#32 ↔ opField c = op ∧ varField c = var := by
  rw [and_opVarMask]
  refine ⟨fun h => ⟨?_, ?_⟩, fun ⟨hop, hvar⟩ => by rw [hop, hvar]⟩
  · simpa only [opField_append] using congrArg opField h
  · simpa only [varField_append] using congrArg varField h

/-- R43: the row INIT.A selects by OP and VAR. -/
theorem rowSelects_rowInitA_iff (c : CmdWord) :
    rowSelects rowInitA c = true ↔ opField c = 0b00#2 ∧ varField c = 0b0#1 :=
  (rowSelects_iff rowInitA c).trans (and_opVarMask_eq_iff c 0b00#2 0b0#1)

/-- R43: the row INIT.B selects by OP and VAR. -/
theorem rowSelects_rowInitB_iff (c : CmdWord) :
    rowSelects rowInitB c = true ↔ opField c = 0b00#2 ∧ varField c = 0b1#1 :=
  (rowSelects_iff rowInitB c).trans (and_opVarMask_eq_iff c 0b00#2 0b1#1)

/-- R43, R47: the reserved row selects by OP alone. -/
theorem rowSelects_rowReserved_iff (c : CmdWord) : rowSelects rowReserved c = true ↔ opField c = 0b11#2 := by
  refine ⟨opField_of_rowSelects (by decide), fun h => ?_⟩
  rw [rowSelects_iff, rowReserved, and_opMask, h]
  decide

theorem opField_cases (c : CmdWord) :
    opField c = 0b00#2 ∨ opField c = 0b01#2 ∨ opField c = 0b10#2 ∨ opField c = 0b11#2 :=
  (by decide : ∀ op : BitVec 2, op = 0b00#2 ∨ op = 0b01#2 ∨ op = 0b10#2 ∨ op = 0b11#2) (opField c)

theorem varField_cases (c : CmdWord) : varField c = 0b0#1 ∨ varField c = 0b1#1 :=
  (by decide : ∀ var : BitVec 1, var = 0b0#1 ∨ var = 0b1#1) (varField c)

/-- Every word is selected by a row, the reserved one counted. -/
theorem exists_rowSelects (c : CmdWord) : ∃ r ∈ opcodeRows ++ [rowReserved], rowSelects r c = true := by
  rcases opField_cases c with h | h | h | h
  · rcases varField_cases c with hv | hv
    · exact ⟨rowInitA, by simp [opcodeRows], (rowSelects_rowInitA_iff c).mpr ⟨h, hv⟩⟩
    · exact ⟨rowInitB, by simp [opcodeRows], (rowSelects_rowInitB_iff c).mpr ⟨h, hv⟩⟩
  · exact ⟨rowWord, by simp [opcodeRows], (rowSelects_rowWord_iff c).mpr h⟩
  · exact ⟨rowFinish, by simp [opcodeRows], (rowSelects_rowFinish_iff c).mpr h⟩
  · exact ⟨rowReserved, by simp [opcodeRows], (rowSelects_rowReserved_iff c).mpr h⟩

/-- Two rows whose patterns agree under both masks are the same row. -/
theorem row_unique_of_pattern_and_mask : ∀ r ∈ opcodeRows ++ [rowReserved], ∀ r' ∈ opcodeRows ++ [rowReserved],
    r.pattern &&& r'.mask = r'.pattern &&& r.mask → r' = r := by
  decide

/-- No word is selected by two rows: it would make their patterns agree under both masks. -/
theorem rowSelects_unique {r r' : OpcodeRow} {c : CmdWord} (hr : r ∈ opcodeRows ++ [rowReserved])
    (hr' : r' ∈ opcodeRows ++ [rowReserved]) (h : rowSelects r c = true) (h' : rowSelects r' c = true) : r' = r := by
  rw [rowSelects_iff] at h h'
  refine row_unique_of_pattern_and_mask r hr r' hr' ?_
  rw [← h, ← h', BitVec.and_assoc, BitVec.and_assoc, BitVec.and_comm r.mask]

/-- Settles O3: the row is `exists_rowSelects`, its uniqueness `rowSelects_unique`, and the decoder follows it row by
row. -/
theorem opcodePatternsPartitionTheWords : Obligations.OpcodePatternsPartitionTheWords := by
  unfold Obligations.OpcodePatternsPartitionTheWords
  refine ⟨fun c => ?_, fun c => ⟨fun h => ?_, fun h => ?_, fun h => ?_, fun h => ?_, fun h => ?_⟩⟩
  · obtain ⟨r, hr, hs⟩ := exists_rowSelects c
    exact ⟨r, hr, hs, fun r' hr' hs' => rowSelects_unique hr hr' hs hs'⟩
  · exact decode_of_rowInitA ((rowSelects_iff rowInitA c).mpr h)
  · exact decode_of_rowInitB ((rowSelects_iff rowInitB c).mpr h)
  · exact decode_of_rowWord ((rowSelects_iff rowWord c).mpr h)
  · exact decode_of_rowFinish ((rowSelects_iff rowFinish c).mpr h)
  · exact decode_of_opField_reserved ((rowSelects_rowReserved_iff c).mp ((rowSelects_iff rowReserved c).mpr h))

/-- Settles O2: each word is selected by the row its command stands in, and its low 32 bits are the operand. -/
theorem writtenOutWordsDecode : Obligations.WrittenOutWordsDecode := by
  unfold Obligations.WrittenOutWordsDecode
  exact ⟨decode_of_rowInitA (by decide), decode_of_rowInitB (by decide), decode_of_rowWord (by decide),
    decode_of_rowWord (by decide), decode_of_rowFinish (by decide), decode_of_opField_reserved (by decide)⟩

/-! ## Canonical words (R48) -/

/-- The command a word decodes to, read off its fields. -/
theorem decode_command_iff (c : CmdWord) (i : Instr) :
    decode c = .command i ↔
      match i with
      | .initA h => opField c = 0b00#2 ∧ varField c = 0b0#1 ∧ operandField c = h
      | .initB h => opField c = 0b00#2 ∧ varField c = 0b1#1 ∧ operandField c = h
      | .word w => opField c = 0b01#2 ∧ operandField c = w
      | .finish => opField c = 0b10#2 := by
  rcases opField_cases c with h | h | h | h
  · rcases varField_cases c with hv | hv
    · rw [decode_of_rowInitA ((rowSelects_rowInitA_iff c).mpr ⟨h, hv⟩)]
      cases i <;> simp [h, hv]
    · rw [decode_of_rowInitB ((rowSelects_rowInitB_iff c).mpr ⟨h, hv⟩)]
      cases i <;> simp [h, hv]
  · rw [decode_of_opField_word h]
    cases i <;> simp [h]
  · rw [decode_of_opField_finish h]
    cases i <;> simp [h]
  · rw [decode_of_opField_reserved h]
    cases i <;> simp [h]

theorem isCanonical_of_opField_word {c : CmdWord} (h : opField c = 0b01#2) :
    isCanonical c = (varField c == 0#1) :=
  if_pos ((rowSelects_rowWord_iff c).mpr h)

theorem isCanonical_of_opField_finish {c : CmdWord} (h : opField c = 0b10#2) :
    isCanonical c = (varField c == 0#1 && operandField c == 0#32) := by
  have hW : rowSelects rowWord c = false := rowSelects_eq_false_of_opField_ne (by decide) (by rw [h]; decide)
  simp [isCanonical, hW, (rowSelects_rowFinish_iff c).mpr h]

/-- An INIT ignores no bit of its word. -/
theorem isCanonical_of_opField_init {c : CmdWord} (h : opField c = 0b00#2) : isCanonical c = true := by
  have hW : rowSelects rowWord c = false := rowSelects_eq_false_of_opField_ne (by decide) (by rw [h]; decide)
  have hF : rowSelects rowFinish c = false := rowSelects_eq_false_of_opField_ne (by decide) (by rw [h]; decide)
  have hR : rowSelects rowReserved c = false := rowSelects_eq_false_of_opField_ne (by decide) (by rw [h]; decide)
  simp [isCanonical, hW, hF, hR]

/-- The encoder writes 0 into every ignored bit. -/
theorem isCanonical_encode (i : Instr) : isCanonical (encode i) = true := by
  cases i with
  | initA h => exact isCanonical_of_opField_init (by rw [encode_initA, opField_append])
  | initB h => exact isCanonical_of_opField_init (by rw [encode_initB, opField_append])
  | word w => rw [encode_word, isCanonical_of_opField_word (opField_append ..), varField_append]; rfl
  | finish => exact isCanonical_of_opField_finish (by decide)

/-- Settles O5: a canonical word is its command's OP, a VAR that its command or its canonicity fixes, and its
operand. -/
theorem encodeOfDecodeOnCanonicalWords : Obligations.EncodeOfDecodeOnCanonicalWords := by
  unfold Obligations.EncodeOfDecodeOnCanonicalWords
  intro c i hcanonical hd
  rw [decode_command_iff] at hd
  rw [← fields_append c]
  cases i with
  | initA h =>
    obtain ⟨hop, hvar, rfl⟩ := hd
    rw [encode_initA, hop, hvar]
  | initB h =>
    obtain ⟨hop, hvar, rfl⟩ := hd
    rw [encode_initB, hop, hvar]
  | word w =>
    obtain ⟨hop, rfl⟩ := hd
    rw [isCanonical_of_opField_word hop, beq_iff_eq] at hcanonical
    rw [encode_word, hop, hcanonical]
  | finish =>
    rw [isCanonical_of_opField_finish hd, Bool.and_eq_true, beq_iff_eq, beq_iff_eq] at hcanonical
    rw [encode_finish, hd, hcanonical.1, hcanonical.2]

/-! ## Assembly lines (R48, R49) -/

/-- Encoded commands decode to themselves, in order. -/
theorem map_decode_map_encode (is : List Instr) : (is.map encode).map decode = is.map Decoded.command := by
  rw [List.map_map]
  exact List.map_congr_left fun i _ => decode_encode i

/-- A stream's commands are its INIT's, each word's and FINISH's lines, one after the other. -/
theorem streamCommands_map (init : Instr) (ws : List Nat) :
    streamCommands init (ws.map (BitVec.ofNat 32)) =
      [init] ++ ws.flatMap (fun w => expandLine (.word w)) ++ expandLine .finish := by
  have hwords : ws.flatMap (fun w => expandLine (.word w)) = (ws.map (BitVec.ofNat 32)).map Instr.word := by
    rw [List.map_map, List.map_eq_flatMap]
    rfl
  rw [hwords]
  rfl

/-- Settles O6: a line's words are its commands encoded, so `decode_encode` and `isCanonical_encode` hold of each. -/
theorem assembledLinesDecodeToTheirCommands : Obligations.AssembledLinesDecodeToTheirCommands := by
  unfold Obligations.AssembledLinesDecodeToTheirCommands
  refine ⟨fun l hl => ⟨(expandLine l).map encode, if_pos hl, map_decode_map_encode _, ?canonical⟩,
    fun n => ⟨rfl, rfl, rfl⟩, rfl, fun h ws => ⟨streamCommands_map _ ws, streamCommands_map _ ws⟩⟩
  case canonical =>
    rw [List.all_map, List.all_eq_true]
    exact fun i _ => isCanonical_encode i

end Sys2Proof

namespace Sys2Proof.Machine

/-! ## Everything a step can do, as a relation -/

/-- The cause a presented word raises from a record with no fault (spec/43_encoder_commands.md R98). -/
def WordRaises (r : Record) (c : CmdWord) (cause : Cause) : Prop :=
  (opField c = 0b11#2 ∧ cause = .illegalCommand) ∨ ∃ i, decode c = .command i ∧ Raises r cause i

/-- The states a step can go to, by what happens in it; `stepTo_of_step` says that these are all. -/
inductive StepTo (s : State) : State → Prop
  /-- No action can take place (R114, R125). -/
  | waits : StepTo s s
  /-- A faulted core ignores the word (R107). -/
  | ignores {c : CmdWord} {rest : List HostEvent} (hi : s.inFlight = none) (hin : s.input = .command c :: rest)
      (hf : s.st.fault ≠ .none) : StepTo s { s with input := rest }
  /-- The word raises a cause (R102 to R104). -/
  | raises {c : CmdWord} {rest : List HostEvent} {cause : Cause} (hi : s.inFlight = none)
      (hin : s.input = .command c :: rest) (hf : s.st.fault = .none) (hr : WordRaises s.st c cause) :
      StepTo s { s with input := rest, st := { s.st with fault := cause } }
  /-- The word's command runs (R90 to R93). -/
  | runs {c : CmdWord} {rest : List HostEvent} {i : Instr} {target : Record} {cs : List Chr} (hi : s.inFlight = none)
      (hin : s.input = .command c :: rest) (hf : s.st.fault = .none) (hd : decode c = .command i)
      (he : Effect s.st target cs i) : StepTo s (deliver target cs { s with input := rest })
  /-- The channel of a free core changes. -/
  | sets {k : Sink} {rest : List HostEvent} (hi : s.inFlight = none) (hin : s.input = .sink k :: rest) :
      StepTo s { s with input := rest, sink := k }
  /-- The channel of a busy core changes, and its command goes on (R125). -/
  | resumes {f : InFlight} {k : Sink} {ws : List CmdWord} {rest : List HostEvent} (hi : s.inFlight = some f)
      (hin : s.input = ws.map HostEvent.command ++ .sink k :: rest) :
      StepTo s (deliver f.target f.pending { s with input := ws.map HostEvent.command ++ rest, sink := k })
  /-- An abort with no command in progress. -/
  | passes {rest : List HostEvent} (hi : s.inFlight = none) (hin : s.input = .abort :: rest) :
      StepTo s { s with input := rest }
  /-- An abort ends the command in progress (R105). -/
  | aborts {f : InFlight} {ws : List CmdWord} {rest : List HostEvent} (hi : s.inFlight = some f)
      (hin : s.input = ws.map HostEvent.command ++ .abort :: rest) :
      StepTo s (raiseFault .sinkAbort { s with input := ws.map HostEvent.command ++ rest })
  /-- Reset (R120). -/
  | resets {ws : List CmdWord} {rest : List HostEvent} (hin : s.input = ws.map HostEvent.command ++ .reset :: rest)
      (hws : s.busy = false → ws = []) :
      StepTo s (applyReset { s with input := ws.map HostEvent.command ++ rest })

/-- A free core takes the first action of its input. -/
theorem nextEvent_of_free {s t : State} {e : HostEvent} (hi : s.inFlight = none) (h : nextEvent s = some (e, t)) :
    ∃ rest, s.input = e :: rest ∧ t = { s with input := rest } := by
  obtain ⟨ws, rest, hin, rfl, hws⟩ := nextEvent_cases h
  obtain rfl := hws (busy_of_inFlight_none hi)
  exact ⟨rest, hin, rfl⟩

/-- A word is rejected only for its OP. -/
theorem opField_of_decode_rejected {c : CmdWord} {r : Reject} (h : decode c = .rejected r) : opField c = 0b11#2 := by
  rcases opField_cases c with hop | hop | hop | hop
  · rcases varField_cases c with hv | hv
    · rw [decode_of_rowInitA ((rowSelects_rowInitA_iff c).mpr ⟨hop, hv⟩)] at h
      cases h
    · rw [decode_of_rowInitB ((rowSelects_rowInitB_iff c).mpr ⟨hop, hv⟩)] at h
      cases h
  · rw [decode_of_opField_word hop] at h
    cases h
  · rw [decode_of_opField_finish hop] at h
    cases h
  · exact hop

/-- What running a presented command answers is one of the cases of `StepTo`. -/
theorem stepTo_of_exec {s t : State} {c : CmdWord} {i : Instr} {rest : List HostEvent} (hi : s.inFlight = none)
    (hin : s.input = .command c :: rest) (hd : decode c = .command i) (h : exec i { s with input := rest } = .next t) :
    StepTo s t := by
  rcases exec_cases h with ⟨hn, rfl⟩ | ⟨cause, -, hf, hr, rfl⟩ | ⟨-, hf, target, cs, he, rfl⟩
  · exact .ignores hi hin (hn.resolve_left (absurd hi))
  · rw [raiseFault_eq (s := { s with input := rest }) cause hi hf]
    exact .raises hi hin hf (.inr ⟨i, hd, hr⟩)
  · exact .runs hi hin hf hd he

/-- What a reserved word answers is one of the cases of `StepTo`. -/
theorem stepTo_of_takeIllegalCommand {s t : State} {c : CmdWord} {rest : List HostEvent} (hi : s.inFlight = none)
    (hin : s.input = .command c :: rest) (hop : opField c = 0b11#2)
    (h : takeIllegalCommand { s with input := rest } = .next t) : StepTo s t := by
  rcases takeIllegalCommand_cases { s with input := rest } with ⟨hn, h'⟩ | ⟨-, hf, h'⟩
  · rw [h'] at h
    cases h
    exact .ignores hi hin (hn.resolve_left (absurd hi))
  · rw [h', raiseFault_eq (s := { s with input := rest }) .illegalCommand hi hf] at h
    cases h
    exact .raises hi hin hf (.inl ⟨hop, rfl⟩)

/-- Every step is one of the cases of `StepTo`. -/
theorem stepTo_of_step {s t : State} (h : step s = .next t) : StepTo s t := by
  rcases step_cases h with ⟨-, rfl⟩ | ⟨c, i, u, hn, hd, hx⟩ | ⟨c, r, u, hn, hd, hx⟩ | ⟨k, u, hn, rfl⟩ | ⟨u, hn, rfl⟩ |
    ⟨u, hn, rfl⟩
  · exact .waits
  · have hi := (nextEvent_some hn).2 ⟨c, rfl⟩
    obtain ⟨rest, hin, rfl⟩ := nextEvent_of_free hi hn
    exact stepTo_of_exec hi hin hd hx
  · have hi := (nextEvent_some hn).2 ⟨c, rfl⟩
    obtain ⟨rest, hin, rfl⟩ := nextEvent_of_free hi hn
    exact stepTo_of_takeIllegalCommand hi hin (opField_of_decode_rejected hd) hx
  · obtain hi | ⟨f, hi⟩ := Option.eq_none_or_eq_some s.inFlight
    · obtain ⟨rest, hin, rfl⟩ := nextEvent_of_free hi hn
      rw [changeSink_none (s := { s with input := rest }) k hi]
      exact .sets hi hin
    · obtain ⟨ws, rest, hin, rfl, -⟩ := nextEvent_cases hn
      rw [changeSink_some (s := { s with input := ws.map HostEvent.command ++ rest }) k hi]
      exact .resumes hi hin
  · obtain hi | ⟨f, hi⟩ := Option.eq_none_or_eq_some s.inFlight
    · obtain ⟨rest, hin, rfl⟩ := nextEvent_of_free hi hn
      rw [abortSink_none (s := { s with input := rest }) hi]
      exact .passes hi hin
    · obtain ⟨ws, rest, hin, rfl, -⟩ := nextEvent_cases hn
      rw [abortSink_some (s := { s with input := ws.map HostEvent.command ++ rest }) hi]
      exact .aborts hi hin
  · obtain ⟨ws, rest, hin, rfl, hws⟩ := nextEvent_cases hn
    exact .resets hin hws

/-! ## The record's invariant (spec/10_state.md R12, R21, R22) -/

/-- Outside Idle the record is coherent when its session fields are. -/
theorem coherent_of_ne_idle {r : Record} (h : r.phase ≠ .idle) : r.coherent = r.sessionHolds := by
  cases hp : r.phase <;> simp_all [Record.coherent]

@[simp] theorem coherent_withFault (r : Record) (c : Cause) : ({ r with fault := c } : Record).coherent = r.coherent :=
  rfl

theorem coherent_recordCause (c : Cause) (r : Record) : (recordCause c r).coherent = r.coherent := by
  unfold recordCause
  split
  · exact coherent_withFault r c
  · rfl

/-- The phases in which WORD and FINISH are valid are Fresh and Streaming. -/
theorem isOpen_iff (p : Phase) : p.isOpen = true ↔ p = .fresh ∨ p = .streaming := by
  cases p <;> simp [Phase.isOpen]

/-- In an open session the record's session fields hold values. -/
theorem sessionHolds_of_open {r : Record} (hc : r.coherent = true) (hp : r.phase = .fresh ∨ r.phase = .streaming) :
    r.sessionHolds = true := by
  rwa [coherent_of_ne_idle (by rcases hp with hp | hp <;> simp [hp])] at hc

/-- R92: the record WORD writes has its accumulator updated and reduced, and the other one as it was. -/
theorem sessionHolds_wordRecord {r : Record} {a : Accumulator} (T : CodeTable) (w : Word) (g : List Chr) (sp : Spacer)
    (hr : r.sessionHolds = true) (ha : HoldsAccumulator r a) :
    (wordRecord (engineWord T a w g).1 sp r).sessionHolds = true := by
  cases a with
  | fletcher s1 s2 =>
    obtain ⟨hv, -, -⟩ := ha
    simp only [Record.sessionHolds, hv, Bool.and_eq_true] at hr
    simp [Record.sessionHolds, wordRecord, storeAccumulator, engineWord, sumInRange, hv, hr.2.2, fletcherWord_fst_le,
      fletcherWord_snd_le]
  | crc c =>
    obtain ⟨hv, -⟩ := ha
    simp only [Record.sessionHolds, hv, Bool.and_eq_true] at hr
    simp [Record.sessionHolds, wordRecord, storeAccumulator, engineWord, hv, hr.2.1.2, hr.2.2]

/-- R90 to R93: a command writes a coherent record. -/
theorem coherent_of_effect {r target : Record} {cs : List Chr} {i : Instr} (hc : r.coherent = true)
    (he : Effect r target cs i) : target.coherent = true := by
  cases i with
  | initA h =>
    obtain ⟨rfl, -⟩ := he
    rfl
  | initB h =>
    obtain ⟨rfl, -⟩ := he
    rfl
  | word w =>
    obtain ⟨hp, sp, a, -, ha, -, rfl⟩ := he
    exact sessionHolds_wordRecord _ _ _ _ (sessionHolds_of_open hc hp) ha
  | finish =>
    obtain ⟨hp, a, -, -, rfl⟩ := he
    exact (sessionHolds_of_open hc hp : r.sessionHolds = true)

/-- No command writes the fault field past its prologue. -/
theorem fault_of_effect {r target : Record} {cs : List Chr} {i : Instr} (he : Effect r target cs i) :
    target.fault = r.fault := by
  cases i with
  | initA h => rw [he.1]; rfl
  | initB h => rw [he.1]; rfl
  | word w =>
    obtain ⟨-, sp, a, -, -, -, rfl⟩ := he
    exact storeAccumulator_fault _ r
  | finish =>
    obtain ⟨-, a, -, -, rfl⟩ := he
    rfl

/-! ## The characters a command emits (spec/42_word_codec.md R87) -/

theorem inRange_iff (c : Chr) : inRange c = true ↔ 0x20 ≤ c.toNat ∧ c.toNat ≤ 0x7F := by simp [inRange]

theorem inRange_quintet (x : BitVec 5) : inRange (x.setWidth 8 ||| quintetTag) = true := by
  have := quintet_range x
  rw [inRange_iff]
  omega

theorem inRange_sextet (x : BitVec 6) : inRange (x.setWidth 8 ||| sextetTag) = true := by
  have := sextet_range x
  rw [inRange_iff]
  omega

theorem all_inRange_group (w : Word) (sp : Spacer) : (group w sp).all inRange = true := by
  simp [group_eq, inRange_quintet, inRange_sextet]

theorem all_inRange_pack565 (v : BitVec 16) : (pack565 v).all inRange = true := by
  simp [pack565_eq, inRange_quintet, inRange_sextet]

/-- A command emits at most 8 characters, all in range. -/
theorem chars_of_effect {r target : Record} {cs : List Chr} {i : Instr} (he : Effect r target cs i) :
    cs.length ≤ 8 ∧ cs.all inRange = true := by
  cases i with
  | initA h => rw [he.2]; simp
  | initB h => rw [he.2]; simp
  | word w =>
    obtain ⟨-, sp, a, -, -, rfl, -⟩ := he
    exact ⟨(group_length w sp).le, all_inRange_group w sp⟩
  | finish =>
    obtain ⟨-, a, -, rfl, -⟩ := he
    exact ⟨by simp, all_inRange_pack565 _⟩

/-! ## A command in progress (R19, R37) -/

theorem InFlight.coherent_iff (r : Record) (f : InFlight) :
    f.coherent r = true ↔
      (f.pending ≠ [] ∧ f.pending.length ≤ 8 ∧ f.pending.all inRange = true) ∧
      (r.fault = .none ∧ r.phase.isOpen = true) ∧
      f.target.coherent = true ∧ f.target.fault = .none ∧ f.target.variant = r.variant ∧
      (f.target.phase = .streaming ∨ f.target.phase = .finished) := by
  simp [InFlight.coherent, and_assoc]

/-- A command in progress stays coherent as its characters are accepted, until none is left. -/
theorem InFlight.coherent_drop {r target : Record} {cs : List Chr} {n : Nat} (hn : n < cs.length)
    (h : InFlight.coherent r ⟨cs, target⟩ = true) : InFlight.coherent r ⟨cs.drop n, target⟩ = true := by
  rw [InFlight.coherent_iff] at h ⊢
  obtain ⟨⟨-, hlen, hrange⟩, hrest⟩ := h
  refine ⟨⟨by simpa using hn, (List.drop_sublist n cs).length_le.trans hlen, ?_⟩, hrest⟩
  rw [List.all_eq_true] at hrange ⊢
  exact fun c hc => hrange c (List.mem_of_mem_drop hc)

/-- R92, R93: a command that emits characters is coherent when it starts. -/
theorem InFlight.coherent_of_effect {r target : Record} {cs : List Chr} {i : Instr} (hc : r.coherent = true)
    (hf : r.fault = .none) (he : Effect r target cs i) (hcs : cs ≠ []) :
    InFlight.coherent r ⟨cs, target⟩ = true := by
  rw [InFlight.coherent_iff]
  refine ⟨⟨hcs, chars_of_effect he⟩, ?_⟩
  have htarget : target.coherent = true ∧ target.fault = .none :=
    ⟨Machine.coherent_of_effect hc he, (fault_of_effect he).trans hf⟩
  cases i with
  | initA h => exact absurd he.2 hcs
  | initB h => exact absurd he.2 hcs
  | word w =>
    obtain ⟨hp, sp, a, -, -, -, rfl⟩ := he
    exact ⟨⟨hf, (isOpen_iff _).mpr hp⟩, htarget.1, htarget.2, storeAccumulator_variant _ r, .inl rfl⟩
  | finish =>
    obtain ⟨hp, a, -, -, rfl⟩ := he
    exact ⟨⟨hf, (isOpen_iff _).mpr hp⟩, htarget.1, htarget.2, rfl, .inr rfl⟩

/-! ## Every step keeps the invariant (R22) -/

theorem inv_iff (s : State) :
    s.Inv = true ↔ s.st.coherent = true ∧
      ∀ f, s.inFlight = some f → f.coherent s.st = true ∧ s.sink.accepts = false := by
  cases hi : s.inFlight <;> simp [State.Inv, hi]

/-- The invariant of a core with no command in progress is that of its record. -/
theorem inv_of_free {s : State} (hc : s.st.coherent = true) (hi : s.inFlight = none) : s.Inv = true :=
  (inv_iff s).mpr ⟨hc, fun f hf => by rw [hi] at hf; cases hf⟩

/-- A delivery meets the invariant: where it completes the target is coherent, and where it stops the channel accepts
nothing and the rest of the command is coherent. -/
theorem inv_deliver {target : Record} {cs : List Chr} {s : State} (hc : s.st.coherent = true)
    (htarget : target.coherent = true) (hf : cs ≠ [] → InFlight.coherent s.st ⟨cs, target⟩ = true) :
    (deliver target cs s).Inv = true := by
  rcases deliver_cases target cs s with ⟨-, h⟩ | ⟨n, -, hn, h⟩
  · rw [h]
    exact inv_of_free htarget rfl
  · rw [h, inv_iff]
    refine ⟨hc, fun f hfl => ?_⟩
    cases hfl
    exact ⟨InFlight.coherent_drop hn (hf (List.ne_nil_of_length_pos (by omega))), rfl⟩

/-- A coherent record, and nothing in progress, after a fault. -/
theorem inv_raiseFault {c : Cause} {s : State} (hc : s.st.coherent = true) : (raiseFault c s).Inv = true :=
  inv_of_free ((coherent_recordCause c s.st).trans hc) rfl

/-- Settles O34, by the cases of a step. -/
theorem stepKeepsTheInvariant : Obligations.StepKeepsTheInvariant := by
  unfold Obligations.StepKeepsTheInvariant
  intro s t hinv hstep
  obtain ⟨hc, hfl⟩ := (inv_iff s).mp hinv
  cases stepTo_of_step hstep with
  | waits => exact hinv
  | ignores hi hin hf => exact inv_of_free hc hi
  | raises hi hin hf hr => exact inv_of_free hc hi
  | runs hi hin hf hd he =>
    exact inv_deliver hc (coherent_of_effect hc he) (InFlight.coherent_of_effect hc hf he)
  | sets hi hin => exact inv_of_free hc hi
  | resumes hi hin =>
    have hcoh := (hfl _ hi).1
    exact inv_deliver hc ((InFlight.coherent_iff _ _).mp hcoh).2.2.1 fun _ => hcoh
  | passes hi hin => exact inv_of_free hc hi
  | aborts hi hin => exact inv_raiseFault hc
  | resets hin hws => exact inv_of_free rfl rfl

/-- Settles O33: after reset every field of the session holds no value, and no command is in progress. -/
theorem resetMeetsTheInvariant : Obligations.ResetMeetsTheInvariant := by
  unfold Obligations.ResetMeetsTheInvariant
  exact inv_of_free rfl rfl

end Sys2Proof.Machine

namespace Sys2Proof.Machine

/-! ## The checks of a presented word (spec/43_encoder_commands.md R98, spec/60_exceptions.md R101 to R104) -/

/-- A word raises a cause by its OP and the phase alone. -/
theorem wordRaises_iff (r : Record) (c : CmdWord) (cause : Cause) :
    WordRaises r c cause ↔
      (opField c = 0b11#2 ∧ cause = .illegalCommand) ∨
      ((opField c = 0b01#2 ∨ opField c = 0b10#2) ∧
        ((r.phase = .idle ∧ cause = .noSession) ∨ (r.phase = .finished ∧ cause = .afterFinish))) := by
  refine or_congr_right ⟨?_, ?_⟩
  · rintro ⟨i, hd, hr⟩
    rw [decode_command_iff] at hd
    cases i with
    | initA h => exact hr.elim
    | initB h => exact hr.elim
    | word w => exact ⟨.inl hd.1, hr⟩
    | finish => exact ⟨.inr hd, hr⟩
  · rintro ⟨hop | hop, hr⟩
    · exact ⟨_, decode_of_opField_word hop, hr⟩
    · exact ⟨_, decode_of_opField_finish hop, hr⟩

/-- From a coherent record a command raises a cause or has its effect. -/
theorem raises_or_effect {r : Record} (hc : r.coherent = true) (i : Instr) :
    (∃ cause, Raises r cause i) ∨ ∃ target cs, Effect r target cs i := by
  have session :
      (∃ cause : Cause, (r.phase = .idle ∧ cause = .noSession) ∨ (r.phase = .finished ∧ cause = .afterFinish)) ∨
      ((r.phase = .fresh ∨ r.phase = .streaming) ∧ ∃ sp a, r.spacer = some sp ∧ HoldsAccumulator r a) := by
    cases hp : r.phase with
    | idle => exact .inl ⟨_, .inl ⟨rfl, rfl⟩⟩
    | finished => exact .inl ⟨_, .inr ⟨rfl, rfl⟩⟩
    | fresh => exact .inr ⟨.inl rfl, holds_of_sessionHolds (sessionHolds_of_open hc (.inl hp))⟩
    | streaming => exact .inr ⟨.inr rfl, holds_of_sessionHolds (sessionHolds_of_open hc (.inr hp))⟩
  cases i with
  | initA h => exact .inr ⟨_, _, rfl, rfl⟩
  | initB h => exact .inr ⟨_, _, rfl, rfl⟩
  | word w => exact session.imp_right fun ⟨hp, sp, a, hsp, ha⟩ => ⟨_, _, hp, sp, a, hsp, ha, rfl, rfl⟩
  | finish => exact session.imp_right fun ⟨hp, sp, a, hsp, ha⟩ => ⟨_, _, hp, a, ha, rfl, rfl⟩

/-- Every word but a reserved one selects a command. -/
theorem exists_decode_of_opField_ne {c : CmdWord} (h : opField c ≠ 0b11#2) : ∃ i, decode c = .command i := by
  cases hd : decode c with
  | command i => exact ⟨i, rfl⟩
  | rejected r => exact absurd (opField_of_decode_rejected hd) h

/-- A word that raises a cause records it, and is taken off the input. -/
theorem step_of_wordRaises {s : State} {c : CmdWord} {rest : List HostEvent} {cause : Cause} (hi : s.inFlight = none)
    (hin : s.input = .command c :: rest) (hf : s.st.fault = .none) (hr : WordRaises s.st c cause) :
    step s = .next { s with input := rest, st := { s.st with fault := cause } } := by
  rcases hr with ⟨hop, rfl⟩ | ⟨i, hd, hr⟩
  · rw [step_of_reserved (nextEvent_idle hi hin) (decode_of_opField_reserved hop)]
    exact takeIllegalCommand_eq hi hf
  · rw [step_of_command (nextEvent_idle hi hin) hd]
    exact exec_of_raises_eq hi hf hr

/-- A word whose command has its effect is taken off the input, and the command delivers. -/
theorem step_of_effect {s : State} {c : CmdWord} {rest : List HostEvent} {i : Instr} {target : Record} {cs : List Chr}
    (hi : s.inFlight = none) (hin : s.input = .command c :: rest) (hf : s.st.fault = .none)
    (hd : decode c = .command i) (he : Effect s.st target cs i) :
    step s = .next (deliver target cs { s with input := rest }) := by
  rw [step_of_command (nextEvent_idle hi hin) hd]
  exact exec_of_effect hi hf he

/-- A delivery leaves a fault field that its target shares. -/
theorem fault_deliver {target : Record} (cs : List Chr) {s : State} {c : Cause} (ht : target.fault = c)
    (hs : s.st.fault = c) : (deliver target cs s).st.fault = c := by
  rcases deliver_cases target cs s with ⟨-, hd⟩ | ⟨n, -, -, hd⟩
  · rw [hd, ht]
  · rw [hd, hs]

/-- Settles O22, along the checks: a recorded fault, then the three causes, and a word that passes them all has its
effect, which writes no fault. -/
theorem checksRunInOrder : Obligations.ChecksRunInOrder := by
  unfold Obligations.ChecksRunInOrder
  intro s c rest hinv hi hsink hin
  obtain ⟨hc, -⟩ := (inv_iff s).mp hinv
  by_cases hf : s.st.fault = .none
  case neg => exact ⟨_, step_of_command_of_fault (nextEvent_idle hi hin) hf, (if_pos hf).symm⟩
  rw [if_neg (not_not.mpr hf)]
  have raised : ∀ cause, WordRaises s.st c cause → ∃ t, step s = .next t ∧ t.st.fault = cause :=
    fun cause hr => ⟨_, step_of_wordRaises hi hin hf hr, rfl⟩
  have hop := opField_cases c
  by_cases hreserved : opField c = 0b11#2
  · rw [if_pos hreserved]
    exact raised _ (.inl ⟨hreserved, rfl⟩)
  rw [if_neg hreserved]
  by_cases hidle : opField c ≠ 0b00#2 ∧ s.st.phase = .idle
  · rw [if_pos hidle]
    exact raised _ ((wordRaises_iff ..).mpr (.inr ⟨by tauto, .inl ⟨hidle.2, rfl⟩⟩))
  rw [if_neg hidle]
  by_cases hfin : opField c ≠ 0b00#2 ∧ s.st.phase = .finished
  · rw [if_pos hfin]
    exact raised _ ((wordRaises_iff ..).mpr (.inr ⟨by tauto, .inr ⟨hfin.2, rfl⟩⟩))
  rw [if_neg hfin]
  obtain ⟨i, hd⟩ := exists_decode_of_opField_ne hreserved
  rcases raises_or_effect hc i with ⟨cause, hr⟩ | ⟨target, cs, he⟩
  · rcases (wordRaises_iff ..).mp (.inr ⟨i, hd, hr⟩) with ⟨h, -⟩ | ⟨h | h, ⟨hp, -⟩ | ⟨hp, -⟩⟩
    · exact absurd h hreserved
    · exact absurd ⟨by rw [h]; decide, hp⟩ hidle
    · exact absurd ⟨by rw [h]; decide, hp⟩ hfin
    · exact absurd ⟨by rw [h]; decide, hp⟩ hidle
    · exact absurd ⟨by rw [h]; decide, hp⟩ hfin
  · exact ⟨_, step_of_effect hi hin hf hd he, fault_deliver cs ((fault_of_effect he).trans hf) hf⟩

/-! ## Fault entry by a step (R101, R106) -/

/-- From an invariant state with no fault, a step records none, or a presented word raises one, or an abort does. -/
theorem StepTo.fault_cases {s t : State} (hinv : s.Inv = true) (hf : s.st.fault = .none) (h : StepTo s t) :
    t.st.fault = .none ∨
    (∃ c rest cause, s.inFlight = none ∧ s.input = .command c :: rest ∧ WordRaises s.st c cause ∧
      t = { s with input := rest, st := { s.st with fault := cause } }) ∨
    (∃ (f : InFlight) (ws : List CmdWord) (rest : List HostEvent), s.inFlight = some f ∧
      s.input = ws.map HostEvent.command ++ .abort :: rest ∧
      t = { s with input := ws.map HostEvent.command ++ rest, inFlight := none,
                   st := { s.st with fault := .sinkAbort } }) := by
  cases h with
  | waits => exact .inl hf
  | ignores hi hin hf' => exact absurd hf hf'
  | raises hi hin hf hr => exact .inr (.inl ⟨_, _, _, hi, hin, hr, rfl⟩)
  | runs hi hin hf hd he => exact .inl (fault_deliver _ ((fault_of_effect he).trans hf) hf)
  | sets hi hin => exact .inl hf
  | resumes hi hin =>
    have hcoh := (((inv_iff s).mp hinv).2 _ hi).1
    obtain ⟨-, -, -, htarget, -⟩ := (InFlight.coherent_iff _ _).mp hcoh
    exact .inl (fault_deliver _ htarget hf)
  | passes hi hin => exact .inl hf
  | aborts hi hin =>
    refine .inr (.inr ⟨_, _, _, hi, hin, ?_⟩)
    rw [raiseFault, recordCause_of_none _ _ hf]
  | resets hin hws => exact .inl rfl

/-- Settles O20: a word is taken off a free core's input, an abort off a busy core's behind the commands that wait. -/
theorem faultEntryIsPrecise : Obligations.FaultEntryIsPrecise := by
  unfold Obligations.FaultEntryIsPrecise
  intro s t hinv hf hstep hne
  rcases (stepTo_of_step hstep).fault_cases hinv hf with h | ⟨c, rest, cause, hi, hin, -, rfl⟩ |
    ⟨f, ws, rest, hi, hin, rfl⟩
  · exact absurd h hne
  · exact ⟨[], .command c, rest, hin, fun _ => rfl, by simp [hi], busy_of_inFlight_none hi⟩
  · refine ⟨ws, .abort, rest, hin, fun hb => ?_, rfl, rfl⟩
    rw [busy_of_inFlight_some hi] at hb
    cases hb

/-- Settles O21: each case of `fault_cases` is the trigger of one cause, and excludes the others. -/
theorem eachCauseHasItsOwnTrigger : Obligations.EachCauseHasItsOwnTrigger := by
  unfold Obligations.EachCauseHasItsOwnTrigger
  intro s t hinv hf hstep
  rcases (stepTo_of_step hstep).fault_cases hinv hf with h | ⟨c, rest, cause, hi, hin, hr, rfl⟩ |
    ⟨f, ws, rest, hi, hin, rfl⟩
  · simp [h]
  · rcases (wordRaises_iff ..).mp hr with ⟨hop, rfl⟩ | ⟨hop, ⟨hp, rfl⟩ | ⟨hp, rfl⟩⟩
    · exact ⟨nofun, nofun, fun _ => ⟨c, rest, hin, hop⟩, nofun⟩
    · exact ⟨fun _ => ⟨hp, c, rest, hin, hop⟩, nofun, nofun, nofun⟩
    · exact ⟨nofun, fun _ => ⟨hp, c, rest, hin, hop⟩, nofun, nofun⟩
  · exact ⟨nofun, nofun, nofun, fun _ => ⟨busy_of_inFlight_some hi, ws, rest, hin, rfl⟩⟩

/-! ## Every step answers (R10, R22) -/

/-- From a coherent record every command answers a next state. -/
theorem exists_exec_next {s : State} (hc : s.st.coherent = true) (hi : s.inFlight = none) (i : Instr) :
    ∃ t, exec i s = .next t := by
  by_cases hf : s.st.fault = .none
  · rcases raises_or_effect hc i with ⟨cause, hr⟩ | ⟨target, cs, he⟩
    · exact ⟨_, exec_of_raises hi hf hr⟩
    · exact ⟨_, exec_of_effect hi hf he⟩
  · exact ⟨_, exec_of_fault i hf⟩

/-- Settles O35, by the action the step takes: only a command can stop the model, and none does from a coherent
record. -/
theorem stepNeverStops : Obligations.StepNeverStops := by
  unfold Obligations.StepNeverStops
  intro s hinv
  obtain ⟨hc, -⟩ := (inv_iff s).mp hinv
  cases hn : nextEvent s with
  | none => exact ⟨_, step_of_none hn⟩
  | some p =>
    obtain ⟨e, u⟩ := p
    cases e with
    | command c =>
      have hi := (nextEvent_some hn).2 ⟨c, rfl⟩
      obtain ⟨rest, -, rfl⟩ := nextEvent_of_free hi hn
      cases hd : decode c with
      | command i =>
        rw [step_of_command hn hd]
        exact exists_exec_next (s := { s with input := rest }) hc hi i
      | rejected r =>
        rw [step_of_reserved hn hd]
        rcases takeIllegalCommand_cases { s with input := rest } with ⟨-, h⟩ | ⟨-, -, h⟩
        · exact ⟨_, h⟩
        · exact ⟨_, h⟩
    | sink k => exact ⟨_, step_of_sink hn⟩
    | abort => exact ⟨_, step_of_abort hn⟩
    | reset => exact ⟨_, step_of_reset hn⟩

/-! ## The step itself (R94, R114) -/

/-- Settles O9: a free core takes the first action, and a command word runs the command it decodes to. -/
theorem stepRunsTheDecodedCommand : Obligations.StepRunsTheDecodedCommand := by
  unfold Obligations.StepRunsTheDecodedCommand
  intro s c rest i hi hin hd
  exact step_of_command (nextEvent_idle hi hin) hd

/-- Settles O10: with no action to come the step takes none. -/
theorem coreWaitsWhenNothingIsPresented : Obligations.CoreWaitsWhenNothingIsPresented := by
  unfold Obligations.CoreWaitsWhenNothingIsPresented
  intro s h
  exact step_of_none (nextEvent_of_input_nil h)

/-! ## Output and variant (R15, R32) -/

/-- A delivery of at most 8 characters in range adds at most 8 characters in range. -/
theorem deliver_out_inRange (target : Record) {cs : List Chr} (s : State) (hlen : cs.length ≤ 8)
    (hrange : cs.all inRange = true) :
    ∃ ds : List Chr, (deliver target cs s).out = s.out ++ ds ∧ ds.length ≤ 8 ∧
      ∀ c ∈ ds, 0x20 ≤ c.toNat ∧ c.toNat ≤ 0x7F := by
  obtain ⟨n, hn⟩ := deliver_out target cs s
  refine ⟨cs.take n, hn, (List.take_sublist n cs).length_le.trans hlen, fun c hc => ?_⟩
  exact (inRange_iff c).mp (List.all_eq_true.mp hrange c (List.mem_of_mem_take hc))

/-- Settles O29, by the cases of a step: only a delivery adds characters, the first of a command's that are left. -/
theorem outputOnlyGrowsByCharactersInRange : Obligations.OutputOnlyGrowsByCharactersInRange := by
  unfold Obligations.OutputOnlyGrowsByCharactersInRange
  intro s t hinv hstep
  have same : ∃ cs : List Chr, s.out = s.out ++ cs ∧ cs.length ≤ 8 ∧ ∀ c ∈ cs, 0x20 ≤ c.toNat ∧ c.toNat ≤ 0x7F :=
    ⟨[], by simp⟩
  cases stepTo_of_step hstep with
  | waits => exact same
  | ignores hi hin hf => exact same
  | raises hi hin hf hr => exact same
  | runs hi hin hf hd he =>
    obtain ⟨hlen, hrange⟩ := chars_of_effect he
    exact deliver_out_inRange _ _ hlen hrange
  | sets hi hin => exact same
  | resumes hi hin =>
    obtain ⟨⟨-, hlen, hrange⟩, -⟩ := (InFlight.coherent_iff _ _).mp (((inv_iff s).mp hinv).2 _ hi).1
    exact deliver_out_inRange _ _ hlen hrange
  | passes hi hin => exact same
  | aborts hi hin => exact same
  | resets hin hws => exact same

/-- A delivery leaves the variant as it was, or as its target has it. -/
theorem variant_deliver (target : Record) (cs : List Chr) (s : State) :
    (deliver target cs s).st.variant = s.st.variant ∨ (deliver target cs s).st.variant = target.variant := by
  rcases deliver_cases target cs s with ⟨-, h⟩ | ⟨n, -, -, h⟩
  · exact .inr (by rw [h])
  · exact .inl (by rw [h])

/-- R42, R15: a command that writes another variant is an INIT, and writes what its VAR says. -/
theorem variant_of_effect {r target : Record} {cs : List Chr} {c : CmdWord} {i : Instr} (hd : decode c = .command i)
    (he : Effect r target cs i) (hne : target.variant ≠ r.variant) :
    opField c = 0b00#2 ∧ target.variant = some (if varField c = 0#1 then .A else .B) := by
  rw [decode_command_iff] at hd
  cases i with
  | initA h =>
    obtain ⟨hop, hvar, -⟩ := hd
    exact ⟨hop, by rw [he.1, if_pos hvar]; rfl⟩
  | initB h =>
    obtain ⟨hop, hvar, -⟩ := hd
    exact ⟨hop, by rw [he.1, if_neg (by rw [hvar]; decide)]; rfl⟩
  | word w =>
    obtain ⟨-, sp, a, -, -, -, rfl⟩ := he
    exact absurd (storeAccumulator_variant _ r) hne
  | finish =>
    obtain ⟨-, a, -, -, rfl⟩ := he
    exact absurd rfl hne

/-- Settles O36, by the cases of a step: the command in progress writes the variant of its session, and what remains is
a presented INIT or reset. -/
theorem variantChangesOnlyByInitOrReset : Obligations.VariantChangesOnlyByInitOrReset := by
  unfold Obligations.VariantChangesOnlyByInitOrReset
  intro s t hinv hstep hne
  cases stepTo_of_step hstep with
  | waits => exact absurd rfl hne
  | ignores hi hin hf => exact absurd rfl hne
  | raises hi hin hf hr => exact absurd rfl hne
  | runs hi hin hf hd he =>
    have htarget := (variant_deliver _ _ _).resolve_left hne
    rw [htarget] at hne ⊢
    obtain ⟨hop, hv⟩ := variant_of_effect hd he hne
    exact .inl ⟨_, _, hin, hop, hv⟩
  | sets hi hin => exact absurd rfl hne
  | resumes hi hin =>
    obtain ⟨-, -, -, -, hv, -⟩ := (InFlight.coherent_iff _ _).mp (((inv_iff s).mp hinv).2 _ hi).1
    exact absurd (((variant_deliver _ _ _).resolve_left hne).trans hv) hne
  | passes hi hin => exact absurd rfl hne
  | aborts hi hin => exact absurd (recordCause_variant _ _) hne
  | resets hin hws => exact .inr ⟨_, _, hin, rfl, hws, rfl⟩

end Sys2Proof.Machine

namespace Sys2Proof.Machine

/-! ## A command cut by the channel (spec/20_memory.md R37, spec/70_reset_and_hazards.md R125) -/

/-- The trailer's value, by variant (spec/41_checksum_engine.md R72). -/
theorem exists_holds_checkValue_iff (r : Record) (v : BitVec 16) :
    (∃ a, HoldsAccumulator r a ∧ checkValue a = v) ↔
      (∃ s1 s2, r.variant = some .A ∧ r.sum1 = some s1 ∧ r.sum2 = some s2 ∧ v = s2 ++ s1) ∨
        (r.variant = some .B ∧ r.chk = some v) := by
  constructor
  · rintro ⟨a, ha, rfl⟩
    cases a with
    | fletcher s1 s2 =>
      obtain ⟨hv, h1, h2⟩ := ha
      exact .inl ⟨s1, s2, hv, h1, h2, rfl⟩
    | crc chk => exact .inr ha
  · rintro (⟨s1, s2, hv, h1, h2, rfl⟩ | h)
    · exact ⟨.fletcher s1 s2, ⟨hv, h1, h2⟩, rfl⟩
    · exact ⟨.crc v, h, rfl⟩

/-- R37: on a channel that accepts fewer characters than a command emits, the command stays in progress with the
rest. -/
theorem exec_of_effect_of_room_lt {i : Instr} {s : State} {target : Record} {cs : List Chr} {n : Nat}
    (hi : s.inFlight = none) (hf : s.st.fault = .none) (he : Effect s.st target cs i) (hsink : s.sink = .room n)
    (hn : n < cs.length) :
    exec i s = .next { s with out := s.out ++ cs.take n, sink := .room 0, inFlight := some ⟨cs.drop n, target⟩ } := by
  rw [exec_of_effect hi hf he, deliver_of_room_lt target cs s n hsink hn]

/-- Settles O24: the session's record holds the values both commands read, and their 8 and 3 characters do not fit. -/
theorem stalledCommandLeavesTheRecordUnwritten : Obligations.StalledCommandLeavesTheRecordUnwritten := by
  unfold Obligations.StalledCommandLeavesTheRecordUnwritten
  refine ⟨fun w s sp n hinv hi hf hp hsp hsink hn => ?word, fun s v n hinv hi hf hp hsink hn hv => ?finish⟩
  case word =>
    obtain ⟨-, a, -, ha⟩ := holds_of_sessionHolds (sessionHolds_of_open ((inv_iff s).mp hinv).1 hp)
    exact ⟨_, exec_of_effect_of_room_lt (i := .word w) hi hf ⟨hp, sp, a, hsp, ha, rfl, rfl⟩ hsink (by simpa using hn)⟩
  case finish =>
    obtain ⟨a, ha, rfl⟩ := (exists_holds_checkValue_iff s.st v).mpr hv
    exact exec_of_effect_of_room_lt (i := .finish) hi hf ⟨hp, a, ha, rfl, rfl⟩ hsink (by simpa using hn)

/-! ## Resuming (R94, R125) -/

/-- Delivery does not look at the input. -/
theorem deliver_withInput (r : Record) (cs : List Chr) (s : State) (l : List HostEvent) :
    deliver r cs { s with input := l } = { deliver r cs s with input := l } := by
  rcases deliver_cases r cs s with ⟨hroom, h⟩ | ⟨n, hsink, hn, h⟩
  · rw [h, deliver_of_hasRoom r cs { s with input := l } hroom]
  · rw [h, deliver_of_room_lt r cs { s with input := l } n hsink hn]

/-- A change of the channel does not look at the input. -/
theorem changeSink_withInput (k : Sink) (s : State) (l : List HostEvent) :
    changeSink k { s with input := l } = { changeSink k s with input := l } := by
  obtain hi | ⟨f, hi⟩ := Option.eq_none_or_eq_some s.inFlight
  · rw [changeSink_none k hi, changeSink_none (s := { s with input := l }) k hi]
  · rw [changeSink_some k hi, changeSink_some (s := { s with input := l }) k hi]
    exact deliver_withInput f.target f.pending { s with sink := k } l

/-- A delivery cut anywhere and then let go on ends as the one that was never cut. -/
theorem changeSink_ready_deliver (r : Record) (cs : List Chr) (s : State) (k : Sink) :
    changeSink .ready (deliver r cs { s with sink := k }) = deliver r cs { s with sink := .ready } := by
  rw [deliver_of_hasRoom r cs { s with sink := .ready } rfl]
  rcases deliver_cases r cs { s with sink := k } with ⟨-, h⟩ | ⟨n, -, -, h⟩
  · rw [h, changeSink_none _ rfl]
    rfl
  · rw [h, changeSink_some _ rfl, deliver_of_hasRoom _ _ _ rfl]
    simp [List.append_assoc]

/-- What a partial acceptance delivers is gone from what a full one delivers after it. -/
theorem changeSink_ready_changeSink (k : Sink) (s : State) :
    changeSink .ready (changeSink k s) = changeSink .ready s := by
  obtain hi | ⟨f, hi⟩ := Option.eq_none_or_eq_some s.inFlight
  · rw [changeSink_none k hi, changeSink_none .ready hi, changeSink_none (s := { s with sink := k }) .ready hi]
  · rw [changeSink_some k hi, changeSink_some .ready hi]
    exact changeSink_ready_deliver f.target f.pending s k

/-- Busy or not, a step at which a change of the channel stands first is that change. -/
theorem step_of_sink_first (k : Sink) (s : State) (l : List HostEvent) :
    step { s with input := .sink k :: l } = .next { changeSink k s with input := l } := by
  rw [step_of_sink (nextEvent_cons_of_ne_command (fun _ => HostEvent.noConfusion) rfl), changeSink_withInput k s l]

/-- Any number of partial acceptances and a full one have the effect of the full one alone. -/
theorem run_sinks (ms : List Nat) (s : State) (rest : List HostEvent) :
    Host.Core.run Sys2Proof.core (ms.length + 1)
      { s with input := ms.map (fun m => HostEvent.sink (.room m)) ++ .sink .ready :: rest } =
        .next { changeSink .ready s with input := rest } := by
  induction ms generalizing s with
  | nil => exact run_of_step 0 (step_of_sink_first .ready s rest)
  | cons m ms ih =>
    have hstep := step_of_sink_first (.room m) s (ms.map (fun m => HostEvent.sink (.room m)) ++ .sink .ready :: rest)
    rw [List.length_cons, List.map_cons, List.cons_append, run_of_step _ hstep, ih, changeSink_ready_changeSink]

/-- A command on a channel that accepts everything ends where the cut one does when the channel lets it go on. -/
theorem exec_ready {i : Instr} {s t : State} {k : Sink} (hi : s.inFlight = none)
    (h : exec i { s with sink := k } = .next t) :
    exec i { s with sink := .ready } = .next (changeSink .ready t) := by
  rcases exec_cases h with ⟨hn, rfl⟩ | ⟨cause, -, hf, hr, rfl⟩ | ⟨-, hf, target, cs, he, rfl⟩
  · rw [exec_of_fault (s := { s with sink := .ready }) i (hn.resolve_left (absurd hi)),
      changeSink_none (s := { s with sink := k }) _ hi]
  · rw [exec_of_raises (s := { s with sink := .ready }) hi hf hr, changeSink_none _ rfl]
    rfl
  · rw [exec_of_effect (s := { s with sink := .ready }) hi hf he, changeSink_ready_deliver]

/-- Settles O25: `exec_ready` for the command run at once, `run_sinks` for the one cut. -/
theorem resumedCommandEqualsTheAtomicOne : Obligations.ResumedCommandEqualsTheAtomicOne := by
  unfold Obligations.ResumedCommandEqualsTheAtomicOne
  intro i s t n ms rest hi h
  exact ⟨_, exec_ready hi h, run_sinks ms t rest⟩

/-! ## A busy core (R125) -/

theorem exists_inFlight_of_busy {s : State} (h : s.busy = true) : ∃ f, s.inFlight = some f :=
  Option.isSome_iff_exists.mp h

/-- The commands presented before an action that is none, and after it. -/
theorem commandsIn_commands_append (cs : List CmdWord) (l : List HostEvent) :
    commandsIn (cs.map HostEvent.command ++ l) = cs ++ commandsIn l := by
  induction cs with
  | nil => rfl
  | cons c cs ih => rw [List.map_cons, List.cons_append, commandsIn, ih, List.cons_append]

/-- A delivery that leaves the core busy has not written the record. -/
theorem st_deliver_of_busy {r : Record} {cs : List Chr} {s : State} (h : (deliver r cs s).busy = true) :
    (deliver r cs s).st = s.st := by
  rcases deliver_cases r cs s with ⟨-, hd⟩ | ⟨n, -, -, hd⟩
  · rw [hd] at h
    cases h
  · rw [hd]

/-- Settles O26, by the cases of a step: those of a free core cannot happen, and the others take an action that is no
command. -/
theorem busyCoreAcceptsNoCommand : Obligations.BusyCoreAcceptsNoCommand := by
  unfold Obligations.BusyCoreAcceptsNoCommand
  intro s t hb hstep
  have notFree : s.inFlight ≠ none := fun hi => by
    rw [busy_of_inFlight_none hi] at hb
    cases hb
  cases stepTo_of_step hstep with
  | waits => exact ⟨rfl, fun _ => rfl⟩
  | ignores hi hin hf => exact absurd hi notFree
  | raises hi hin hf hr => exact absurd hi notFree
  | runs hi hin hf hd he => exact absurd hi notFree
  | sets hi hin => exact absurd hi notFree
  | resumes hi hin =>
    refine ⟨?_, st_deliver_of_busy⟩
    rw [deliver_input, hin, commandsIn_commands_append, commandsIn_commands_append, commandsIn]
  | passes hi hin => exact absurd hi notFree
  | aborts hi hin =>
    refine ⟨?_, nofun⟩
    rw [raiseFault_input, hin, commandsIn_commands_append, commandsIn_commands_append, commandsIn]
  | resets hin hws =>
    refine ⟨?_, nofun⟩
    rw [applyReset_input, hin, commandsIn_commands_append, commandsIn_commands_append, commandsIn]

/-- Presented commands alone hold no other action. -/
theorem firstControl_map_command (cs : List CmdWord) : firstControl (cs.map HostEvent.command) = none := by
  induction cs with
  | nil => rfl
  | cons c cs ih => rw [List.map_cons, firstControl, ih]

/-- A state that a step answers is answered by every run. -/
theorem run_of_step_self {s : State} (h : step s = .next s) (k : Nat) : Host.Core.run Sys2Proof.core k s = .next s := by
  induction k with
  | zero => rfl
  | succ k ih => rw [run_of_step k h, ih]

/-- Settles O27: of presented commands a busy core takes none, and a reset or an abort behind them is taken first. -/
theorem busyCoreStaysBusyWithoutTheSink : Obligations.BusyCoreStaysBusyWithoutTheSink := by
  unfold Obligations.BusyCoreStaysBusyWithoutTheSink
  refine ⟨fun s cs k hb hin => ?waits, fun s cs rest hb hin => ?reset, fun s cs rest hb hf hin => ?abort⟩
  case waits =>
    have hn : nextEvent s = none := by simp [nextEvent, hb, hin, firstControl_map_command]
    exact run_of_step_self (step_of_none hn) k
  case reset =>
    obtain ⟨f, hi⟩ := exists_inFlight_of_busy hb
    exact step_of_reset (nextEvent_busy hi (fun _ => HostEvent.noConfusion) hin)
  case abort =>
    obtain ⟨f, hi⟩ := exists_inFlight_of_busy hb
    rw [step_of_abort (nextEvent_busy hi (fun _ => HostEvent.noConfusion) hin)]
    exact congrArg _ (abortSink_eq hi hf)

/-- Settles O28: the change of the channel is taken behind the commands that wait, and goes on with the delivery. -/
theorem acceptingSinkCompletesTheCommand : Obligations.AcceptingSinkCompletesTheCommand := by
  unfold Obligations.AcceptingSinkCompletesTheCommand
  intro s f cs rest k hi hin
  have hstep : step s = .next (deliver f.target f.pending
      { s with input := cs.map HostEvent.command ++ rest, sink := k }) := by
    rw [step_of_sink (nextEvent_busy hi (fun _ => HostEvent.noConfusion) hin)]
    exact congrArg _ (changeSink_some k hi)
  refine ⟨fun hroom => ?_, fun n hk hn => ?_⟩
  · rw [hstep, deliver_of_hasRoom _ _ _ hroom]
  · rw [hstep, deliver_of_room_lt _ _ _ n hk hn]

/-! ## Frames (spec/10_state.md R20) -/

/-- What a command without characters leaves: the record alone is written, and only with no command in progress and no
fault. -/
theorem exec_silent_cases {i : Instr} {s t : State} (h : exec i s = .next t)
    (hr : ∀ cause, ¬ Raises s.st cause i) (he : ∀ target cs, Effect s.st target cs i → cs = []) :
    t = s ∨ ∃ target, Effect s.st target [] i ∧ t = { s with st := target } := by
  rcases exec_cases h with ⟨-, rfl⟩ | ⟨cause, -, -, hraises, -⟩ | ⟨hi, -, target, cs, heff, rfl⟩
  · exact .inl rfl
  · exact absurd hraises (hr cause)
  · obtain rfl := he target cs heff
    exact .inr ⟨target, heff, by rw [deliver_nil, ← hi]⟩

/-- Settles O30: an INIT changes nothing, or writes its record and nothing else. -/
theorem initFrame : Obligations.InitFrame := by
  unfold Obligations.InitFrame
  refine ⟨fun h s t hx => ?_, fun h s t hx => ?_⟩
  · rcases exec_silent_cases hx (fun _ => id) (fun _ _ he => he.2) with rfl | ⟨target, ⟨rfl, -⟩, rfl⟩
    · exact ⟨rfl, rfl, rfl, rfl, rfl, .inl rfl⟩
    · exact ⟨rfl, rfl, rfl, rfl, rfl, .inr ⟨rfl, rfl, rfl⟩⟩
  · rcases exec_silent_cases hx (fun _ => id) (fun _ _ he => he.2) with rfl | ⟨target, ⟨rfl, -⟩, rfl⟩
    · exact ⟨rfl, rfl, rfl, rfl, rfl, .inl rfl⟩
    · exact ⟨rfl, rfl, rfl, rfl, rfl, .inr ⟨rfl, rfl, rfl, rfl⟩⟩

/-- R20: under variant A, WORD leaves `chk`. -/
theorem chk_wordRecord_of_A {r : Record} {a : Accumulator} (T : CodeTable) (w : Word) (g : List Chr) (sp : Spacer)
    (ha : HoldsAccumulator r a) (hv : r.variant = some .A) :
    (wordRecord (engineWord T a w g).1 sp r).chk = r.chk := by
  cases a with
  | fletcher s1 s2 => rfl
  | crc chk => exact absurd (hv.symm.trans ha.1) (by decide)

/-- R20: under variant B, WORD leaves `sum1` and `sum2`. -/
theorem sums_wordRecord_of_B {r : Record} {a : Accumulator} (T : CodeTable) (w : Word) (g : List Chr) (sp : Spacer)
    (ha : HoldsAccumulator r a) (hv : r.variant = some .B) :
    (wordRecord (engineWord T a w g).1 sp r).sum1 = r.sum1 ∧
      (wordRecord (engineWord T a w g).1 sp r).sum2 = r.sum2 := by
  cases a with
  | fletcher s1 s2 => exact absurd (hv.symm.trans ha.1) (by decide)
  | crc chk => exact ⟨rfl, rfl⟩

/-- Settles O31, by the cases of a command: nothing, a fault, a whole delivery, or one cut short with the record
unwritten. -/
theorem wordFrame : Obligations.WordFrame := by
  unfold Obligations.WordFrame
  intro w s t hx
  rcases exec_cases hx with ⟨-, rfl⟩ | ⟨cause, hi, hf, hr, rfl⟩ | ⟨-, hf, target, cs, he, rfl⟩
  · exact ⟨rfl, .inl rfl, rfl, fun _ => rfl, fun _ => ⟨rfl, rfl⟩, .inl rfl, fun hne => absurd rfl hne⟩
  · rw [raiseFault_eq cause hi hf]
    refine ⟨rfl, .inl rfl, rfl, fun _ => rfl, fun _ => ⟨rfl, rfl⟩, .inl rfl, fun _ => ⟨rfl, ?_⟩⟩
    exact hr.imp And.right And.right
  · have hfault := fault_deliver (s := s) cs (fault_of_effect he) rfl
    obtain ⟨-, sp, a, hsp, ha, rfl, htarget⟩ := he
    obtain ⟨n, hout⟩ := deliver_out target (group w sp) s
    refine ⟨deliver_input .., .inr ⟨sp, n, hsp, hout⟩, ?_⟩
    rcases deliver_cases target (group w sp) s with ⟨-, hd⟩ | ⟨n, -, -, hd⟩
    · rw [hd] at hfault ⊢
      subst htarget
      exact ⟨storeAccumulator_variant _ _, chk_wordRecord_of_A _ _ _ _ ha, sums_wordRecord_of_B _ _ _ _ ha, .inr rfl,
        fun hne => absurd hfault hne⟩
    · rw [hd]
      exact ⟨rfl, fun _ => rfl, fun _ => ⟨rfl, rfl⟩, .inl rfl, fun hne => absurd rfl hne⟩

/-- Settles O32, by the cases of a command: nothing, a fault, a whole delivery, or one cut short with the record
unwritten. -/
theorem finishFrame : Obligations.FinishFrame := by
  unfold Obligations.FinishFrame
  intro s t hx
  rcases exec_cases hx with ⟨-, rfl⟩ | ⟨cause, hi, hf, hr, rfl⟩ | ⟨-, -, target, cs, ⟨-, a, ha, rfl, rfl⟩, rfl⟩
  · exact ⟨rfl, .inl rfl, rfl, rfl, rfl, rfl, rfl, .inl rfl, fun hne => absurd rfl hne⟩
  · rw [raiseFault_eq cause hi hf]
    refine ⟨rfl, .inl rfl, rfl, rfl, rfl, rfl, rfl, .inl rfl, fun _ => ⟨rfl, ?_⟩⟩
    exact hr.imp And.right And.right
  · obtain ⟨n, hout⟩ := deliver_out { s.st with phase := .finished } (pack565 (checkValue a)) s
    refine ⟨deliver_input .., .inr ⟨checkValue a, n, (exists_holds_checkValue_iff _ _).mp ⟨a, ha, rfl⟩, hout⟩, ?_⟩
    rcases deliver_cases { s.st with phase := .finished } (pack565 (checkValue a)) s with ⟨-, hd⟩ | ⟨n, -, -, hd⟩
    · rw [hd]
      exact ⟨rfl, rfl, rfl, rfl, rfl, .inr rfl, fun hne => absurd rfl hne⟩
    · rw [hd]
      exact ⟨rfl, rfl, rfl, rfl, rfl, .inl rfl, fun hne => absurd rfl hne⟩

/-! ## Phases and commands (spec/43_encoder_commands.md R94) -/

/-- Settles O37: each cell of the table is the command's effect on an accepting channel, or the fault its check
raises. -/
theorem phaseTransitionTable : Obligations.PhaseTransitionTable := by
  unfold Obligations.PhaseTransitionTable
  intro s hinv hi hf hsink
  have hroom : ∀ k, s.sink.hasRoom k = true := fun k => by rw [hsink]; rfl
  refine ⟨fun h => ⟨?initA, ?initB⟩, fun hp => ?_, fun hp => ?idle, fun hp => ?finished, fun c rest hop => ?reserved⟩
  case initA => exact ⟨_, exec_of_silent_effect (i := .initA h) hi hf ⟨rfl, rfl⟩, rfl, rfl⟩
  case initB => exact ⟨_, exec_of_silent_effect (i := .initB h) hi hf ⟨rfl, rfl⟩, rfl, rfl⟩
  case idle =>
    exact ⟨fun w => exec_of_raises_eq hi hf (.inl ⟨hp, rfl⟩), exec_of_raises_eq hi hf (.inl ⟨hp, rfl⟩)⟩
  case finished =>
    exact ⟨fun w => exec_of_raises_eq hi hf (.inr ⟨hp, rfl⟩), exec_of_raises_eq hi hf (.inr ⟨hp, rfl⟩)⟩
  case reserved => exact step_of_wordRaises (s := { s with input := .command c :: rest }) hi rfl hf (.inl ⟨hop, rfl⟩)
  obtain ⟨sp, a, hsp, ha⟩ := holds_of_sessionHolds (sessionHolds_of_open ((inv_iff s).mp hinv).1 hp)
  refine ⟨fun w => ⟨_, exec_word_of_hasRoom hi hf hp (hroom 8) hsp ha, rfl, by simp, ?_⟩,
    ⟨_, exec_finish_of_hasRoom hi hf hp (hroom 3) ha, rfl, by simp, hf⟩⟩
  exact (storeAccumulator_fault _ _).trans hf

/-! ## The status output (spec/30_encoding.md R55) -/

/-- R55: which field each bit of the status comes from. -/
theorem status_getLsbD (s : State) (i : Nat) :
    s.status.getLsbD i =
      if i < 2 then s.st.phase.code.getLsbD i
      else if i - 2 < 1 then (variantBit s.st.variant).getLsbD (i - 2)
      else if i - 2 - 1 < 3 then s.st.fault.code.getLsbD (i - 2 - 1)
      else (BitVec.ofBool s.busy).getLsbD (i - 2 - 1 - 3) := by
  have happ : s.status.getLsbD i =
      (BitVec.ofBool s.busy ++ s.st.fault.code ++ variantBit s.st.variant ++ s.st.phase.code).getLsbD i := rfl
  rw [happ, BitVec.getLsbD_append, BitVec.getLsbD_append, BitVec.getLsbD_append]

/-- Bit 6 of the status says whether a command is in progress. -/
theorem status_getLsbD_six (s : State) : s.status.getLsbD 6 = s.busy := by
  rw [status_getLsbD]
  simp

/-- Bit 2 of the status is the code of the variant. -/
theorem status_getLsbD_two (s : State) : s.status.getLsbD 2 = (variantBit s.st.variant).getLsbD 0 := by
  rw [status_getLsbD]
  simp

theorem status_phase (s : State) : s.status.extractLsb' 0 2 = s.st.phase.code := BitVec.extractLsb'_append_eq_right

theorem status_fault (s : State) : s.status.extractLsb' 3 3 = s.st.fault.code := by
  rw [State.status, BitVec.extractLsb'_append_eq_of_le (by decide), BitVec.extractLsb'_append_eq_of_le (by decide)]
  exact BitVec.extractLsb'_append_eq_right

/-- Settles O38: each field of the status is the code of its field of the record. -/
theorem statusOutputBits : Obligations.StatusOutputBits := by
  unfold Obligations.StatusOutputBits
  intro s
  refine ⟨?phase, fun v hv => ?variant, ?fault, status_getLsbD_six s⟩
  case phase =>
    rw [status_phase]
    cases s.st.phase <;> rfl
  case variant =>
    rw [status_getLsbD_two, hv]
    cases v <;> rfl
  case fault =>
    rw [status_fault]
    cases s.st.fault <;> rfl

/-- Settles O39, by the cases of a step: a delivery on an accepting channel completes, and no action makes the channel
stop. -/
theorem busyReadsZeroBetweenSteps : Obligations.BusyReadsZeroBetweenSteps := by
  unfold Obligations.BusyReadsZeroBetweenSteps
  intro s t hsink hb hready hstep
  rw [status_getLsbD_six]
  have notBusy : ∀ f, s.inFlight ≠ some f := fun f hi => by
    rw [busy_of_inFlight_some hi] at hb
    cases hb
  cases stepTo_of_step hstep with
  | waits => exact ⟨hb, hsink⟩
  | ignores hi hin hf => exact ⟨hb, hsink⟩
  | raises hi hin hf hr => exact ⟨hb, hsink⟩
  | runs hi hin hf hd he =>
    rw [deliver_of_hasRoom _ _ _ (by rw [hsink]; rfl), hsink]
    exact ⟨rfl, rfl⟩
  | sets hi hin => exact ⟨hb, hready _ (by rw [hin]; exact List.mem_cons_self)⟩
  | resumes hi hin => exact absurd hi (notBusy _)
  | passes hi hin => exact ⟨hb, hsink⟩
  | aborts hi hin => exact absurd hi (notBusy _)
  | resets hin hws => exact ⟨rfl, hsink⟩

end Sys2Proof.Machine

namespace Sys2Proof.Machine

/-! ## The fields of a group (spec/42_word_codec.md R80 to R88) -/

/-- Stripped of its tag, a quintet's character is the quintet, here widened as in the parity. -/
theorem quintet_strip (x : BitVec 5) :
    (x.setWidth 8 ||| quintetTag) &&& 0x1F#8 = (x.setWidth 6).setWidth 8 := by
  revert x; decide

/-- Stripped of its tag, a sextet's character is the sextet. -/
theorem sextet_strip (x : BitVec 6) : (x.setWidth 8 ||| sextetTag) &&& 0x3F#8 = x.setWidth 8 := by
  revert x; decide

/-- R82, R86: the parity field completes the exclusive OR of the payload to the complement. -/
theorem payload_xor_parity (f : WordFields) (s : Spacer) :
    f.b0.setWidth 6 ^^^ f.b1 ^^^ f.b2.setWidth 6 ^^^ s ^^^ f.b3.setWidth 6 ^^^ f.b4 ^^^ f.b5.setWidth 6 ^^^ parity f s =
      parityComplement := by
  rw [parity, ← BitVec.xor_assoc, BitVec.xor_self, BitVec.zero_xor]

/-- Settles O41: the tags stripped, the eight fields are the payload's and the parity, widened to 8 bits. -/
theorem parityLaw : Obligations.ParityLaw := by
  unfold Obligations.ParityLaw
  intro w s
  refine ⟨_, _, _, _, _, _, _, _, group_eq w s, ?_⟩
  simp only [quintet_strip, sextet_strip, ← BitVec.setWidth_xor, payload_xor_parity]
  rfl

/-- Settles O42: by position, each character is a quintet's or a sextet's. -/
theorem groupCharactersInRange : Obligations.GroupCharactersInRange := by
  unfold Obligations.GroupCharactersInRange
  refine fun w s => ⟨group_length w s, fun p c hc => ?_⟩
  rw [group_eq] at hc
  match p, hc with
  | 0, rfl => exact quintet_range _
  | 1, rfl => exact sextet_range _
  | 2, rfl => exact quintet_range _
  | 3, rfl => exact sextet_range _
  | 4, rfl => exact quintet_range _
  | 5, rfl => exact sextet_range _
  | 6, rfl => exact quintet_range _
  | 7, rfl => exact sextet_range _

/-- A word is its six fields, `b5` highest. -/
theorem word_eq_fields (w : Word) :
    w = (split w).b5 ++ (split w).b4 ++ (split w).b3 ++ (split w).b2 ++ (split w).b1 ++ (split w).b0 := by
  simp only [split]
  iterate 5 rw [BitVec.extractLsb'_append_extractLsb'_eq_extractLsb' (by rfl)]
  rw [BitVec.extractLsb'_eq_self]

/-- R88: equal groups have equal fields, and so come from the same word and spacer. -/
theorem group_injective {w w' : Word} {s s' : Spacer} (h : group w s = group w' s') : w = w' ∧ s = s' := by
  simp only [group_eq, List.cons.injEq] at h
  obtain ⟨h0, h1, h2, hs, h3, h4, h5, -⟩ := h
  refine ⟨?_, sextet_injective _ _ hs⟩
  rw [word_eq_fields w, word_eq_fields w', quintet_injective _ _ h0, sextet_injective _ _ h1, quintet_injective _ _ h2,
    quintet_injective _ _ h3, sextet_injective _ _ h4, quintet_injective _ _ h5]

/-- Settles O43: the tags lose no bit, and the fields are the whole word. -/
theorem groupDeterminesWordAndSpacer : Obligations.GroupDeterminesWordAndSpacer := by
  unfold Obligations.GroupDeterminesWordAndSpacer
  exact fun w w' s s' h => group_injective h

/-- The first eight characters of a stream are the group of its first word with the header. -/
theorem take_eight_streamOf (T : CodeTable) (v : Variant) (h w : Word) (ws : List Word) :
    (streamOf T v h (w :: ws)).take 8 = group w (headerOf h) := by
  simp only [streamOf, streamWords, List.append_assoc]
  exact List.take_left' (group_length w (headerOf h))

/-- Settles O44: the first groups of the two streams, with the same spacer, already tell the words apart. -/
theorem orderOfTwoWordsShows : Obligations.OrderOfTwoWordsShows := by
  unfold Obligations.OrderOfTwoWordsShows
  intro T v h a b heq
  have hgroups : group a (headerOf h) = group b (headerOf h) := by
    rw [← take_eight_streamOf T v h a [b], ← take_eight_streamOf T v h b [a]]
    simpa [List.take_take] using congrArg (List.take 8) heq
  exact (group_injective hgroups).1

/-! ## The trailer (spec/41_checksum_engine.md R71) -/

/-- A value is the three fields of its trailer. -/
theorem value_eq_fields (v : BitVec 16) : v = v.extractLsb' 11 5 ++ v.extractLsb' 5 6 ++ v.extractLsb' 0 5 := by
  iterate 2 rw [BitVec.extractLsb'_append_extractLsb'_eq_extractLsb' (by rfl)]
  rw [BitVec.extractLsb'_eq_self]

/-- Settles O55: equal trailers have equal fields. -/
theorem trailerDeterminesItsValue : Obligations.TrailerDeterminesItsValue := by
  unfold Obligations.TrailerDeterminesItsValue
  intro v v' h
  simp only [pack565_eq, List.cons.injEq] at h
  obtain ⟨h0, h1, h2, -⟩ := h
  rw [value_eq_fields v, value_eq_fields v', quintet_injective _ _ h0, sextet_injective _ _ h1,
    quintet_injective _ _ h2]

/-! ## The Fletcher word update (R63) -/

/-- The Fletcher step reduced after each addition. -/
def reducedStep (T : CodeTable) (p : Nat × Nat) (c : Chr) : Nat × Nat :=
  ((p.1 + (T c).toNat) % 255, (p.2 + (p.1 + (T c).toNat) % 255) % 255)

/-- Reducing after every addition gives the residues of the exact sums. -/
theorem foldl_reducedStep (T : CodeTable) (s1 s2 : Nat) (g : List Chr) :
    g.foldl (reducedStep T) (s1 % 255, s2 % 255) =
      ((fletcherSums T (s1, s2) g).1 % 255, (fletcherSums T (s1, s2) g).2 % 255) := by
  induction g generalizing s1 s2 with
  | nil => rfl
  | cons c g ih =>
    have hstep : reducedStep T (s1 % 255, s2 % 255) c =
        ((s1 + (T c).toNat) % 255, (s2 + (s1 + (T c).toNat)) % 255) := by
      simp [reducedStep]
    rw [List.foldl_cons, hstep, ih, fletcherSums_cons]
    rfl

/-- R63: the exact sums over a group of eight characters. -/
theorem fletcherSums_eight (T : CodeTable) (s1 s2 : Nat) (g : List Chr) (hg : g.length = 8) :
    fletcherSums T (s1, s2) g =
      (s1 + ((List.range 8).map fun i => (T (g.getD i 0)).toNat).sum,
       s2 + 8 * s1 + ((List.range 8).map fun i => (8 - i) * (T (g.getD i 0)).toNat).sum) := by
  match g, hg with
  | [c0, c1, c2, c3, c4, c5, c6, c7], _ =>
    have hrange : List.range 8 = [0, 1, 2, 3, 4, 5, 6, 7] := by decide
    simp only [fletcherSums_cons, fletcherSums_nil, fletcherStep, residue, hrange, List.map_cons, List.map_nil,
      List.sum_cons, List.sum_nil, List.getD_cons_zero, List.getD_cons_succ, Prod.mk.injEq]
    omega

/-- R63: the sums before the reduction, under any bound of the first one. -/
theorem fletcherSums_le (T : CodeTable) {M s1 : Nat} (s2 : Nat) (g : List Chr) (hM : s1 + 255 * g.length ≤ M) :
    (fletcherSums T (s1, s2) g).1 ≤ M ∧ (fletcherSums T (s1, s2) g).2 ≤ s2 + g.length * M := by
  induction g generalizing s1 s2 with
  | nil => exact ⟨by simpa using hM, by simp⟩
  | cons c g ih =>
    have hc : (T c).toNat < 256 := (T c).isLt
    rw [List.length_cons] at hM ⊢
    have hrest := ih (s1 := s1 + (T c).toNat) (s2 + (s1 + (T c).toNat)) (by omega)
    refine ⟨hrest.1, hrest.2.trans ?_⟩
    rw [Nat.succ_mul]
    omega

theorem fletcherWord_fst_toNat (T : CodeTable) (s1 s2 : BitVec 8) (g : List Chr) :
    (fletcherWord T s1 s2 g).1.toNat = (fletcherSums T (s1.toNat, s2.toNat) g).1 % 255 := by
  have := Nat.mod_lt (fletcherSums T (s1.toNat, s2.toNat) g).1 (y := 255) (by decide)
  rw [fletcherWord, BitVec.toNat_ofNat, fletcherModulus]
  exact Nat.mod_eq_of_lt (by omega)

theorem fletcherWord_snd_toNat (T : CodeTable) (s1 s2 : BitVec 8) (g : List Chr) :
    (fletcherWord T s1 s2 g).2.toNat = (fletcherSums T (s1.toNat, s2.toNat) g).2 % 255 := by
  have := Nat.mod_lt (fletcherSums T (s1.toNat, s2.toNat) g).2 (y := 255) (by decide)
  rw [fletcherWord, BitVec.toNat_ofNat, fletcherModulus]
  exact Nat.mod_eq_of_lt (by omega)

/-- Settles O46: the stored sums are the exact ones modulo 255, which the step that reduces each time gives too. -/
theorem fletcherWordClosedForm : Obligations.FletcherWordClosedForm := by
  unfold Obligations.FletcherWordClosedForm
  intro T s1 s2 g hg h1 h2
  have hsums := fletcherSums_eight T s1.toNat s2.toNat g hg
  have hbounds := fletcherSums_le T (M := 2294) s2.toNat g (by omega : s1.toNat + 255 * g.length ≤ 2294)
  have hreduced := foldl_reducedStep T s1.toNat s2.toNat g
  rw [Nat.mod_eq_of_lt (by omega : s1.toNat < 255), Nat.mod_eq_of_lt (by omega : s2.toNat < 255)] at hreduced
  refine ⟨?_, ?_, ?_, hbounds.1, by omega, fletcherWord_fst_le T s1 s2 g, fletcherWord_snd_le T s1 s2 g⟩
  · rw [fletcherWord_fst_toNat, hsums]
  · rw [fletcherWord_snd_toNat, hsums]
  · rw [fletcherWord_fst_toNat, fletcherWord_snd_toNat]
    exact hreduced.symm

/-! ## What WORD reads of the table (R18, R74) -/

/-- Reading the accumulator hands on one that the record holds. -/
theorem readAccumulator_congr {r : Record} {k k' : Accumulator → Host.Outcome State Fault Refusal}
    (h : ∀ a, HoldsAccumulator r a → k a = k' a) : readAccumulator r k = readAccumulator r k' := by
  unfold readAccumulator
  cases hv : r.variant with
  | none => rfl
  | some v =>
    cases v with
    | A =>
      cases h1 : r.sum1 with
      | none => rfl
      | some s1 =>
        cases h2 : r.sum2 with
        | none => rfl
        | some s2 => exact h (.fletcher s1 s2) ⟨hv, h1, h2⟩
    | B =>
      cases hc : r.chk with
      | none => rfl
      | some chk => exact h (.crc chk) ⟨hv, hc⟩

/-- WORD depends on the table only through the update of the accumulator the record holds. -/
theorem execWordWith_congr {T T' : CodeTable} {w : Word} {s : State}
    (h : ∀ sp a, HoldsAccumulator s.st a → engineWord T a w (group w sp) = engineWord T' a w (group w sp)) :
    execWordWith T w s = execWordWith T' w s := by
  have hbody : encodeWordWith T (dataWordOf w) s = encodeWordWith T' (dataWordOf w) s := by
    unfold encodeWordWith
    cases s.st.spacer with
    | none => rfl
    | some sp =>
      rw [readField_some, readField_some]
      refine readAccumulator_congr fun a ha => ?_
      simp only [dataWordOf, h sp a ha]
  rw [execWordWith, execWordWith, hbody]

/-- R74: the engine reads the table at the characters of the group. -/
theorem engineWord_congr {T T' : CodeTable} (a : Accumulator) (w : Word) {g : List Chr} (h : ∀ c ∈ g, T c = T' c) :
    engineWord T a w g = engineWord T' a w g := by
  cases a with
  | fletcher s1 s2 => simp only [engineWord, fletcherWord, fletcherSums_congr T T' _ g h]
  | crc chk => rfl

/-- Settles O47: the characters of a group are in range, and variant B's accumulator reads no table. -/
theorem onlyTaggedTableEntriesAreRead : Obligations.OnlyTaggedTableEntriesAreRead := by
  unfold Obligations.OnlyTaggedTableEntriesAreRead
  refine ⟨fun w s => rfl, fun T T' w s hT => ?_, fun T T' w s hv => ?_⟩
  · refine execWordWith_congr fun sp a _ => engineWord_congr a w fun c hc => ?_
    have hrange := (inRange_iff c).mp (List.all_eq_true.mp (all_inRange_group w sp) c hc)
    exact hT c hrange.1 hrange.2
  · refine execWordWith_congr fun sp a ha => ?_
    cases a with
    | fletcher s1 s2 => exact absurd (hv.symm.trans ha.1) (by decide)
    | crc chk => rfl

/-! ## The CRC word update (R65, R68, R69) -/

/-- A round keeps a value of 16 bits within its low 16 bits. -/
theorem crcBit_setWidth {n : Nat} (hn : 16 ≤ n) (a : BitVec 16) : crcBit (a.setWidth n) = (crcBit a).setWidth n := by
  apply BitVec.eq_of_toNat_eq
  rw [crcBit_toNat hn, BitVec.toNat_setWidth_of_le hn, BitVec.toNat_setWidth_of_le hn, crcBit_toNat (Nat.le_refl 16)]

theorem crcRounds_setWidth {n : Nat} (hn : 16 ≤ n) (k : Nat) (a : BitVec 16) :
    crcRounds k (a.setWidth n) = (crcRounds k a).setWidth n := by
  induction k generalizing a with
  | zero => rfl
  | succ k ih => rw [crcRounds_succ, crcBit_setWidth hn, ih, crcRounds_succ]

/-- While the bits that leave the accumulator are 0, the rounds only shift. -/
theorem crcRounds_of_low_zero {n : Nat} (k : Nat) (a : BitVec n) (h : ∀ i < k, a.getLsbD i = false) :
    crcRounds k a = a >>> k := by
  induction k generalizing a with
  | zero => rw [crcRounds_zero, BitVec.ushiftRight_zero]
  | succ k ih =>
    have hbit : crcBit a = a >>> 1 := by rw [crcBit, h 0 (by omega)]; rfl
    rw [crcRounds_succ, hbit, ih (a >>> 1) fun i hi => ?_, ← BitVec.shiftRight_add, Nat.add_comm]
    rw [BitVec.getLsbD_ushiftRight]
    exact h (1 + i) (by omega)

/-- The low byte of a word, bit by bit. -/
theorem lowByte_getLsbD (w : Word) (i : Nat) :
    ((w.extractLsb' 0 8).setWidth 32).getLsbD i = (decide (i < 8) && w.getLsbD i) := by
  by_cases hi : i < 8
  · simp [hi, show i < 32 by omega]
  · simp [hi]

/-- R69: eight rounds of the word update consume one byte: the low byte goes through the byte update, and what stands
above it is only shifted. -/
theorem crcRounds_eight (chk : BitVec 16) (w : Word) :
    crcRounds 8 (w ^^^ chk.setWidth 32) = (w >>> 8) ^^^ (crcByte chk (w.extractLsb' 0 8)).setWidth 32 := by
  have hsplit : w ^^^ chk.setWidth 32 =
      (w ^^^ (w.extractLsb' 0 8).setWidth 32) ^^^ (chk ^^^ (w.extractLsb' 0 8).setWidth 16).setWidth 32 := by
    rw [BitVec.setWidth_xor, BitVec.setWidth_setWidth (by decide), BitVec.xor_comm (chk.setWidth 32),
      BitVec.xor_assoc w, ← BitVec.xor_assoc _ _ (chk.setWidth 32), BitVec.xor_self, BitVec.zero_xor]
  have hhigh : crcRounds 8 (w ^^^ (w.extractLsb' 0 8).setWidth 32) = w >>> 8 := by
    rw [crcRounds_of_low_zero 8 _ fun i hi => by rw [BitVec.getLsbD_xor, lowByte_getLsbD]; simp [hi]]
    apply BitVec.eq_of_getLsbD_eq
    intro i hi
    simp only [BitVec.getLsbD_ushiftRight, BitVec.getLsbD_xor, lowByte_getLsbD]
    simp
  rw [hsplit, crcRounds_xor, hhigh, crcRounds_setWidth (by decide), crcByte]

/-- R69: the 32 rounds of the word update are the four byte updates, low byte first, and leave the high half 0. -/
theorem crcRounds_word (chk : BitVec 16) (w : Word) :
    crcRounds 32 (w ^^^ chk.setWidth 32) =
      (crcByte (crcByte (crcByte (crcByte chk (w.extractLsb' 0 8)) (w.extractLsb' 8 8)) (w.extractLsb' 16 8))
        (w.extractLsb' 24 8)).setWidth 32 := by
  have hbyte : ∀ k, (w >>> k).extractLsb' 0 8 = w.extractLsb' k 8 := by
    intro k
    apply BitVec.eq_of_getLsbD_eq
    intro i hi
    simp [hi]
  rw [crcRounds_add 24 8, crcRounds_add 16 8, crcRounds_add 8 8]
  simp only [crcRounds_eight, ← BitVec.shiftRight_add, hbyte]
  rw [BitVec.ushiftRight_eq_zero (by decide), BitVec.zero_xor]

/-- Settles O51: the low half of the accumulator is the four byte updates. -/
theorem crcWordIsFourByteUpdates : Obligations.CrcWordIsFourByteUpdates := by
  unfold Obligations.CrcWordIsFourByteUpdates
  intro chk w
  rw [crcWord, crcWordAcc, crcRounds_word, BitVec.extractLsb'_setWidth_of_le (by decide), BitVec.extractLsb'_eq_self]

/-- Settles O50: the accumulator is the four byte updates widened, and so is `crcWord`. -/
theorem crcWordLeavesTheHighHalfZero : Obligations.CrcWordLeavesTheHighHalfZero := by
  unfold Obligations.CrcWordLeavesTheHighHalfZero
  intro chk w
  rw [crcRounds_word, crcWordIsFourByteUpdates chk w]

end Sys2Proof.Machine

namespace Sys2Proof.Machine

/-! ## One command of a session in one step (spec/43_encoder_commands.md R90 to R94) -/

/-- A core that accepts commands and whose channel accepts every character. -/
structure Accepting (s : State) : Prop where
  inFlight : s.inFlight = none
  fault : s.st.fault = .none
  sink : s.sink = .ready

/-- An accepting core in an open session with this spacer and accumulator. -/
structure InSession (s : State) (sp : Spacer) (a : Accumulator) : Prop extends Accepting s where
  phase : s.st.phase = .fresh ∨ s.st.phase = .streaming
  spacer : s.st.spacer = some sp
  holds : HoldsAccumulator s.st a

/-- A presented command is run, and taken off the input. -/
theorem step_of_encode {s : State} {i : Instr} {l : List HostEvent} (hi : s.inFlight = none)
    (hin : s.input = .command (encode i) :: l) : step s = exec i { s with input := l } :=
  step_of_command (nextEvent_idle hi hin) (decode_encode i)

/-- On an accepting core a command past its prologue delivers its characters, writes its record, and leaves the core
accepting. -/
theorem Accepting.step_of_effect {s : State} {i : Instr} {l : List HostEvent} {target : Record} {cs : List Chr}
    (hs : Accepting s) (hin : s.input = .command (encode i) :: l) (he : Effect s.st target cs i) :
    ∃ t, step s = .next t ∧ Accepting t ∧ t.st = target ∧ t.out = s.out ++ cs ∧ t.input = l := by
  have hroom : s.sink.hasRoom cs.length = true := by rw [hs.sink]; rfl
  refine ⟨_, (step_of_encode hs.inFlight hin).trans
    (exec_of_effect_of_hasRoom (s := { s with input := l }) hs.inFlight hs.fault he hroom), ?_, rfl, rfl, rfl⟩
  exact ⟨hs.inFlight, (fault_of_effect he).trans hs.fault, by simp [hs.sink]⟩

/-- R90, R91: what a session's INIT writes. -/
theorem exists_effect_initOf (v : Variant) (h : Word) (r : Record) :
    ∃ target, Effect r target [] (initOf v h) ∧ target.phase = .fresh ∧ target.spacer = some (headerOf h) ∧
      HoldsAccumulator target (firstAccumulator v (headerOf h)) := by
  cases v with
  | A => exact ⟨_, ⟨rfl, rfl⟩, rfl, rfl, rfl, rfl, rfl⟩
  | B => exact ⟨_, ⟨rfl, rfl⟩, rfl, rfl, rfl, rfl⟩

/-- R90, R91: an INIT opens a session with its header as spacer, and emits nothing. -/
theorem Accepting.step_init {s : State} {l : List HostEvent} (hs : Accepting s) (v : Variant) (h : Word)
    (hin : s.input = .command (encode (initOf v h)) :: l) :
    ∃ t, step s = .next t ∧ InSession t (headerOf h) (firstAccumulator v (headerOf h)) ∧ t.out = s.out ∧ t.input = l ∧
      t.st.phase = .fresh := by
  obtain ⟨target, he, hphase, hsp, ha⟩ := exists_effect_initOf v h s.st
  obtain ⟨t, hstep, ht, rfl, hout, hl⟩ := hs.step_of_effect hin he
  exact ⟨t, hstep, ⟨ht, .inl hphase, hsp, ha⟩, by rw [hout, List.append_nil], hl, hphase⟩

/-- The record WORD writes holds the accumulator the engine gives. -/
theorem holds_wordRecord {r : Record} {a : Accumulator} (T : CodeTable) (w : Word) (g : List Chr) (sp : Spacer)
    (ha : HoldsAccumulator r a) :
    HoldsAccumulator (wordRecord (engineWord T a w g).1 sp r) (engineWord T a w g).1 := by
  cases a with
  | fletcher s1 s2 => exact ⟨ha.1, rfl, rfl⟩
  | crc chk => exact ⟨ha.1, rfl⟩

/-- R92: a WORD emits its group, and hands the engine's accumulator and spacer on. -/
theorem InSession.step_word {s : State} {sp : Spacer} {a : Accumulator} {l : List HostEvent} (hs : InSession s sp a)
    (w : Word) (hin : s.input = .command (encode (.word w)) :: l) :
    ∃ t, step s = .next t ∧
      InSession t (engineWord Config.crc8Table a w (group w sp)).2 (engineWord Config.crc8Table a w (group w sp)).1 ∧
      t.out = s.out ++ group w sp ∧ t.input = l ∧ t.st.phase = .streaming := by
  obtain ⟨t, hstep, ht, hst, hout, hl⟩ :=
    hs.toAccepting.step_of_effect (i := .word w) hin ⟨hs.phase, sp, a, hs.spacer, hs.holds, rfl, rfl⟩
  refine ⟨t, hstep, ⟨ht, ?_, ?_, ?_⟩, hout, hl, ?_⟩ <;> rw [hst]
  · exact .inr rfl
  · rfl
  · exact holds_wordRecord _ _ _ _ hs.holds
  · rfl

/-- R93: FINISH emits the trailer of the accumulator and ends the session. -/
theorem InSession.step_finish {s : State} {sp : Spacer} {a : Accumulator} {l : List HostEvent} (hs : InSession s sp a)
    (hin : s.input = .command (encode .finish) :: l) :
    ∃ t, step s = .next t ∧ Accepting t ∧ t.out = s.out ++ pack565 (checkValue a) ∧ t.input = l ∧
      t.st.phase = .finished := by
  obtain ⟨t, hstep, ht, hst, hout, hl⟩ :=
    hs.toAccepting.step_of_effect (i := .finish) hin ⟨hs.phase, a, hs.holds, rfl, rfl⟩
  exact ⟨t, hstep, ht, hout, hl, by rw [hst]⟩

/-! ## Runs of a session (spec/30_encoding.md R49, R54) -/

/-- The WORDs of a session, one step each, emit the words' characters and reach the words' accumulator. -/
theorem InSession.run_words {s : State} {sp : Spacer} {a : Accumulator} (hs : InSession s sp a) (ws : List Word)
    (rest : List HostEvent) (hin : s.input = present (ws.map Instr.word) ++ rest) :
    ∃ t sp', Host.Core.run Sys2Proof.core ws.length s = .next t ∧
      InSession t sp' (streamWords Config.crc8Table a sp ws).2 ∧
      t.out = s.out ++ (streamWords Config.crc8Table a sp ws).1 ∧ t.input = rest ∧
      t.st.phase = if ws = [] then s.st.phase else .streaming := by
  induction ws generalizing s sp a with
  | nil => exact ⟨s, sp, rfl, hs, (List.append_nil _).symm, hin, rfl⟩
  | cons w ws ih =>
    obtain ⟨u, hstep, hu, hout, hl, hphase⟩ := hs.step_word w hin
    obtain ⟨t, sp', hrun, ht, hout', hl', hphase'⟩ := ih hu hl
    refine ⟨t, sp', (run_of_step _ hstep).trans hrun, ht, ?_, hl', ?_⟩
    · rw [hout', hout, List.append_assoc]
      rfl
    · rw [hphase', hphase, ite_self, if_neg (List.cons_ne_nil w ws)]

/-- A session up to its last WORD, from any accepting core. -/
theorem Accepting.run_open {s : State} (hs : Accepting s) (v : Variant) (h : Word) (ws : List Word)
    (rest : List HostEvent) (hin : s.input = present (initOf v h :: ws.map Instr.word) ++ rest) :
    ∃ t sp, Host.Core.run Sys2Proof.core (ws.length + 1) s = .next t ∧
      InSession t sp (streamWords Config.crc8Table (firstAccumulator v (headerOf h)) (headerOf h) ws).2 ∧
      t.out = s.out ++ (streamWords Config.crc8Table (firstAccumulator v (headerOf h)) (headerOf h) ws).1 ∧
      t.input = rest ∧ t.st.phase = if ws = [] then .fresh else .streaming := by
  obtain ⟨u, hstep, hu, hout, hl, hphase⟩ := hs.step_init v h hin
  obtain ⟨t, sp, hrun, ht, hout', hl', hphase'⟩ := hu.run_words ws rest hl
  exact ⟨t, sp, (run_of_step _ hstep).trans hrun, ht, by rw [hout', hout], hl', by rw [hphase', hphase]⟩

/-- The words of a complete session are those of the open one, and FINISH. -/
theorem present_streamCommands (init : Instr) (ws : List Word) (rest : List HostEvent) :
    present (streamCommands init ws) ++ rest =
      present (init :: ws.map Instr.word) ++ .command (encode .finish) :: rest := by
  simp [present, streamCommands]

/-- A complete session, from any accepting core. -/
theorem Accepting.run_session {s : State} (hs : Accepting s) (v : Variant) (h : Word) (ws : List Word)
    (rest : List HostEvent) (hin : s.input = present (streamCommands (initOf v h) ws) ++ rest) :
    ∃ t, Host.Core.run Sys2Proof.core (ws.length + 2) s = .next t ∧ Accepting t ∧
      t.out = s.out ++ streamOf Config.crc8Table v h ws ∧ t.input = rest ∧ t.st.phase = .finished := by
  rw [present_streamCommands] at hin
  obtain ⟨u, sp, hrun, hu, hout, hl, -⟩ := hs.run_open v h ws _ hin
  obtain ⟨t, hstep, ht, hout', hl', hphase⟩ := hu.step_finish hl
  refine ⟨t, (run_add (ws.length + 1) 1 hrun).trans (run_of_step 0 hstep), ht, ?_, hl', hphase⟩
  rw [hout', hout, List.append_assoc]
  rfl

/-- Settles O56: the hypotheses say that the core is accepting, and `run_session` is the run. -/
theorem sessionEmitsItsStream : Obligations.SessionEmitsItsStream := by
  unfold Obligations.SessionEmitsItsStream
  intro v h ws rest s hi hf hsink hin
  obtain ⟨t, hrun, ht, hout, hl, hphase⟩ := Accepting.run_session ⟨hi, hf, hsink⟩ v h ws rest hin
  exact ⟨t, hrun, hout, hphase, ht.fault, ht.inFlight, hl⟩

/-- Eight characters a word. -/
theorem length_streamWords (T : CodeTable) (a : Accumulator) (sp : Spacer) (ws : List Word) :
    (streamWords T a sp ws).1.length = 8 * ws.length := by
  induction ws generalizing a sp with
  | nil => rfl
  | cons w ws ih =>
    simp only [streamWords, List.length_append, group_length, ih, List.length_cons]
    omega

/-- R95: the words' characters and the trailer's three. -/
theorem length_streamOf (T : CodeTable) (v : Variant) (h : Word) (ws : List Word) :
    (streamOf T v h ws).length = size ws.length := by
  rw [streamOf, List.length_append, length_streamWords, pack565_length, size, Nat.add_comm]

/-- Settles O57: the length of the session's stream. -/
theorem sizeLaw : Obligations.SizeLaw := by
  unfold Obligations.SizeLaw
  intro v h ws rest s hi hf hsink hin
  obtain ⟨t, hrun, -, hout, -, -⟩ := Accepting.run_session ⟨hi, hf, hsink⟩ v h ws rest hin
  exact ⟨t, hrun, by rw [hout, List.length_append, length_streamOf], rfl⟩

/-- Settles O58: the stream depends on its operand through the header alone. -/
theorem sessionOutputIsDetermined : Obligations.SessionOutputIsDetermined := by
  unfold Obligations.SessionOutputIsDetermined
  intro v h h' ws rest rest' s s' hmod hi hf hsink hi' hf' hsink' hin hin'
  obtain ⟨t, hrun, -, hout, -, -⟩ := Accepting.run_session ⟨hi, hf, hsink⟩ v h ws rest hin
  obtain ⟨t', hrun', -, hout', -, -⟩ := Accepting.run_session ⟨hi', hf', hsink'⟩ v h' ws rest' hin'
  have hheader : headerOf h' = headerOf h := by rw [headerOf_eq_ofNat, headerOf_eq_ofNat, hmod]
  have hstream : streamOf Config.crc8Table v h' ws = streamOf Config.crc8Table v h ws := by
    simp only [streamOf, hheader]
  exact ⟨t, t', _, hrun, hrun', hout, by rw [hout', hstream]⟩

/-- Settles O59: the open session's characters, and a core with no action to come waits. -/
theorem abandonedSession : Obligations.AbandonedSession := by
  unfold Obligations.AbandonedSession
  intro v h ws k s hi hf hsink hin
  rw [← List.append_nil (present _)] at hin
  obtain ⟨t, sp, hrun, ht, hout, hl, hphase⟩ := Accepting.run_open ⟨hi, hf, hsink⟩ v h ws [] hin
  refine ⟨t, hrun, by rw [hout, List.length_append, length_streamWords], ht.fault, hphase, ?_⟩
  exact run_of_step_self (step_of_none (nextEvent_of_input_nil hl)) k

/-! ## A host that keeps to the contract (spec/70_reset_and_hazards.md R122, R124) -/

/-- The contract's next command raises no cause. -/
theorem not_raises_of_sessionOk {r : Record} {i : Instr} {is : List Instr} (h : sessionOk r.phase (i :: is) = true)
    (cause : Cause) : ¬ Raises r cause i := by
  have session : r.phase.isOpen = true →
      ¬ ((r.phase = .idle ∧ cause = .noSession) ∨ (r.phase = .finished ∧ cause = .afterFinish)) := by
    rintro hopen (⟨hp, -⟩ | ⟨hp, -⟩) <;> rw [hp] at hopen <;> cases hopen
  cases i with
  | initA o => exact id
  | initB o => exact id
  | word w => exact session ((Bool.and_eq_true_iff.mp h).1)
  | finish => exact session ((Bool.and_eq_true_iff.mp h).1)

/-- The contract goes on from the phase a command leaves. -/
theorem sessionOk_of_effect {r target : Record} {cs : List Chr} {i : Instr} {is : List Instr}
    (h : sessionOk r.phase (i :: is) = true) (he : Effect r target cs i) : sessionOk target.phase is = true := by
  cases i with
  | initA o =>
    obtain ⟨rfl, -⟩ := he
    exact h
  | initB o =>
    obtain ⟨rfl, -⟩ := he
    exact h
  | word w =>
    obtain ⟨-, sp, a, -, -, -, rfl⟩ := he
    exact (Bool.and_eq_true_iff.mp h).2
  | finish =>
    obtain ⟨-, a, -, -, rfl⟩ := he
    exact (Bool.and_eq_true_iff.mp h).2

/-- An accepting core runs the commands of a contract-keeping host, one step each, and stays accepting. -/
theorem Accepting.run_contract {s : State} (hs : Accepting s) (hinv : s.Inv = true) (is : List Instr)
    (rest : List HostEvent) (hin : s.input = present is ++ rest) (hok : sessionOk s.st.phase is = true) :
    ∃ t, Host.Core.run Sys2Proof.core is.length s = .next t ∧ Accepting t ∧ t.input = rest := by
  induction is generalizing s with
  | nil => exact ⟨s, rfl, hs, hin⟩
  | cons i is ih =>
    rcases raises_or_effect ((inv_iff s).mp hinv).1 i with ⟨cause, hr⟩ | ⟨target, cs, he⟩
    · exact absurd hr (not_raises_of_sessionOk hok cause)
    · obtain ⟨u, hstep, hu, rfl, -, hl⟩ := hs.step_of_effect hin he
      obtain ⟨t, hrun, ht⟩ := ih hu (stepKeepsTheInvariant s u hinv hstep) hl (sessionOk_of_effect hok he)
      exact ⟨t, (run_of_step _ hstep).trans hrun, ht⟩

/-- Settles O60: `run_contract`, an induction over the commands that carries the invariant along. -/
theorem contractKeepingHostSeesNoFault : Obligations.ContractKeepingHostSeesNoFault := by
  unfold Obligations.ContractKeepingHostSeesNoFault
  intro is rest s hinv hi hf hsink hin hok
  obtain ⟨t, hrun, ht, hl⟩ := Accepting.run_contract ⟨hi, hf, hsink⟩ hinv is rest hin hok
  exact ⟨t, hrun, ht.fault, hl, ht.inFlight⟩

end Sys2Proof.Machine
